-- ==== Sys2Proof/Word.lean ====
section
/-! DEFINITION. The word types of CRCDIV: a message byte (R31, R48), the 11-bit command word (R45), and the two register widths (R1). -/

namespace Sys2Proof

/-- One message byte, an unsigned value in 0 to 255 (R31, R48). -/
abbrev Byte := BitVec 8

/-- One word on port `cmd` (R17, R45). -/
abbrev CmdWord := BitVec 11

/-- The width of U16's registers (R1: `W` = 16). -/
abbrev Word16 := BitVec 16

/-- The width of U32's register (R1: `W` = 32). -/
abbrev Word32 := BitVec 32

end Sys2Proof
end

