-- ==== Sys2Proof/Syntax.lean ====
section
/-! DEFINITION. The six commands of the opcode table (R49), the two units they address, and what decoding a word answers (R50). -/

namespace Sys2Proof

/-- The two dividers (R1, R10): U16 computes CRC-16/ARC, U32 computes CRC-32/ISO-HDLC. -/
inductive UnitId where
  | u16
  | u32
  deriving DecidableEq, Repr

/-- The commands a host presents: one constructor per row of the opcode table (R49). The operand of BYTE is the
unsigned 8-bit immediate of R48; START and FINISH have none. -/
inductive Instr where
  /-- START16, R75. -/
  | start16
  /-- BYTE16 b, R76. -/
  | byte16 (b : Byte)
  /-- FINISH16, R77. -/
  | finish16
  /-- START32, R95. -/
  | start32
  /-- BYTE32 b, R96. -/
  | byte32 (b : Byte)
  /-- FINISH32, R97. -/
  | finish32
  deriving DecidableEq, Repr

/-- The three legal operations of the field `op` (R47). -/
inductive Op where
  | start
  | byte
  | finish
  deriving DecidableEq, Repr

/-- Why a word is reserved: the three classes of R51. -/
inductive ReservedKind where
  /-- `op` = 0. -/
  | opZero
  /-- START with nonzero `data`. -/
  | startWithData
  /-- FINISH with nonzero `data`. -/
  | finishWithData
  deriving DecidableEq, Repr

/-- What decoding a word answers (R50). A reserved word still addresses the unit its bit 10 names. -/
inductive Decoded where
  | legal (i : Instr)
  | reserved (u : UnitId) (why : ReservedKind)
  deriving DecidableEq, Repr

end Sys2Proof
end

