-- ==== Sys2Proof/Config.lean ====
section
/-! DEFINITION. The hardwired constants of the two units (R1, R4, R7), the agents' turns, and the two parameters the spec leaves open
(RESET_DATA, SCHED) as free values without a body. -/

namespace Sys2Proof.Config

/-- R21, R124: the constants of one unit; they are wiring, not state. The register width `W` is the index. -/
structure Variant (w : Nat) where
  /-- The reflected generator polynomial. -/
  poly : BitVec w
  /-- The value START gives the register. -/
  init : BitVec w
  /-- The final XOR mask. -/
  xorout : BitVec w
  deriving DecidableEq, Repr

/-- R1: CRC-16/ARC, the constants of U16. -/
def arc : Variant 16 := { poly := 0xA001#16, init := 0x0000#16, xorout := 0x0000#16 }

/-- R1: CRC-32/ISO-HDLC, the constants of U32. -/
def isoHdlc : Variant 32 := { poly := 0xEDB88320#32, init := 0xFFFFFFFF#32, xorout := 0xFFFFFFFF#32 }

/-- Which agent takes the next step (R9, R10). -/
inductive Turn where
  /-- The host's presented word is up for acceptance (R56). -/
  | command
  /-- Unit `u` takes its own step, if it has one (R78, R79, R98). -/
  | own (u : UnitId)
  /-- `rst` is asserted (R160); the host gives up the first `withdrawn` of the words it still had to present, and presents the
  rest (0: all of them) again. -/
  | reset (withdrawn : Nat)
  deriving DecidableEq, Repr, Inhabited

/-- SCHED (92 D32): the turn taken at counter `n` where neither the state's schedule gives one nor a unit's turn is due. FREE VALUE, log 3. -/
opaque sched : Nat → Turn

/-- SCHED: how many free turns stand before the next due turn of a unit, drawn at counter `n`. FREE VALUE, log 3. -/
opaque gap : Nat → Nat

/-- RESET_DATA (92 D31): what a reset step at counter `n` leaves in `U16.crc`, which held the second argument. FREE VALUE, log 2. -/
opaque resetCrc16 : Nat → Word16 → Word16

/-- RESET_DATA: what a reset step leaves in `U16.wrk`. FREE VALUE, log 2. -/
opaque resetWrk16 : Nat → Word16 → Word16

/-- RESET_DATA: what a reset step leaves in `U16.cnt`. FREE VALUE, log 2. -/
opaque resetCnt16 : Nat → BitVec 4 → BitVec 4

/-- RESET_DATA: what a reset step leaves in `U32.crc`. FREE VALUE, log 2. -/
opaque resetCrc32 : Nat → Word32 → Word32

/-- RESET_DATA: what a reset step leaves in `U32.cnt`. FREE VALUE, log 2. -/
opaque resetCnt32 : Nat → BitVec 4 → BitVec 4

end Sys2Proof.Config
end

