-- ==== Sys2Proof/Machine/State.lean ====
section
/-! DEFINITION. The state of CRCDIV (R10), the reasons a step can stop, and the state right after reset (R24). -/

namespace Sys2Proof.Machine

/-- R15: the phase of a unit's lifecycle. Its storage encoding is not visible (93 U12). -/
inductive Phase where
  | idle
  | active
  | shift
  | done
  | fault
  deriving DecidableEq, Repr

/-- R143: the two command faults. -/
inductive Cause where
  /-- R137, code 1. -/
  | illegalCommand
  /-- R139, code 2. -/
  | protocolError
  deriving DecidableEq, Repr

/-- The control registers both units have (R10). -/
structure Control where
  /-- R14: division steps still to do for the byte being folded. -/
  cnt : BitVec 4
  /-- R15. -/
  ph : Phase
  /-- R20: 0 no fault, 1 IllegalCommand, 2 ProtocolError, 3 never produced. -/
  fcause : BitVec 2
  deriving DecidableEq, Repr

/-- R10: the registers of U16. -/
structure Unit16 extends Control where
  /-- R11. -/
  crc : Word16
  /-- R13: the `working` value. -/
  wrk : Word16
  deriving DecidableEq, Repr

/-- R10: the registers of U32; it has no working register (R13). -/
structure Unit32 extends Control where
  /-- R11. -/
  crc : Word32
  deriving DecidableEq, Repr

/-- R10: the state of the block is the pair of its units. The other three fields are the MODEL's: inputs of the environment and
the index of the free values, as the log says. -/
structure State where
  /-- Unit U16 (R10). -/
  u16 : Unit16
  /-- Unit U32 (R10). -/
  u32 : Unit32
  /-- The words the host still has to present, oldest first; the head is on port `cmd` (R17, R56; log 4). -/
  port : List CmdWord
  /-- The schedule of the coming steps, any interleaving (92 D32; log 3). -/
  sched : List Config.Turn
  /-- The index of the free values, advanced in every step (log 3). -/
  tick : Nat
  deriving DecidableEq, Repr

/-- Why the machine stops with a fault of the MODEL. The hardware's own command faults (R137, R139) are next states in phase FAULT,
not these. -/
inductive Fault where
  /-- Raised by U32's own step in phase SHIFT with `cnt` = 0, where R98 would count below 0, which R64 excludes. No run reaches it
  (R26). SAFE: the model stops where no claim about a reachable state looks. -/
  | cntUnderflow32
  deriving DecidableEq, Repr

/-- Why the model gives a request no meaning. -/
inductive Refusal where
  /-- Raised by `exec` for an instruction that has no meaning yet; no arm does. SAFE. -/
  | notModelled (mnemonic : String)
  /-- Raised by `readRes16` and `readRes32`: the host reads `res` of unit `u` outside phase DONE (R19, 93 U6: refuse). SAFE: the spec
  defines no value. -/
  | resultUndefined (u : UnitId)
  /-- Raised by `submit`, the caller-side wrapper, for an absent input or an element outside 0 to 255, before any command (R136). SAFE:
  it is the behaviour the spec states. -/
  | invalidInput
  deriving DecidableEq, Repr

/-- R24: both units IDLE with no fault cause. The data registers, to which the spec gives no value (R25, 92 D31), hold zeros: DESIGN
CHOICE, log 1. No command is pending (R160), no turn is scheduled and the counter is 0: DESIGN CHOICE, log 3 and log 4. -/
def State.reset : State :=
  { u16 := { crc := 0x0000#16, wrk := 0x0000#16, cnt := 0#4, ph := .idle, fcause := 0#2 }
    u32 := { crc := 0x00000000#32, cnt := 0#4, ph := .idle, fcause := 0#2 }
    port := []
    sched := []
    tick := 0 }

end Sys2Proof.Machine
end

