-- ==== Sys2Proof/Machine/DivStep.lean ====
section
/-! DEFINITION. The division step and its iteration (40_division_step.md), once for both widths. -/

namespace Sys2Proof.Machine

/-- R60: test the low bit, shift right by one (logically, R61), XOR in the polynomial if the bit was 1. -/
def divStep {w : Nat} (v : Config.Variant w) (x : BitVec w) : BitVec w :=
  if x.getLsbD 0 then (x >>> 1) ^^^ v.poly else x >>> 1

/-- R9: `DivStep_u^k`, `k` applications of the step. -/
def divSteps {w : Nat} (v : Config.Variant w) : Nat → BitVec w → BitVec w
  | 0, x => x
  | k + 1, x => divSteps v k (divStep v x)

end Sys2Proof.Machine
end

