-- ==== Sys2Proof/Machine/Operands.lean ====
section
/-! DEFINITION. The operand forms: the zero-extended byte (R48), the low byte of a register (R76) and the high byte brought down (R79). -/

namespace Sys2Proof.Machine

/-- R48: `zext_16(data)`. -/
def zext16 (b : Byte) : Word16 := b.setWidth 16

/-- R48: `zext_32(data)`. -/
def zext32 (b : Byte) : Word32 := b.setWidth 32

/-- R76: `crc[7:0]`, the value of `crc & 0xFF` as a byte. -/
def lowByte (c : Word16) : Byte := c.extractLsb' 0 8

/-- R79: `crc >> 8`, the high byte brought down (logical, R61). -/
def highByteDown (c : Word16) : Word16 := c >>> 8

end Sys2Proof.Machine
end

