-- ==== Sys2Proof/WellFormed.lean ====
section
/-! DEFINITION. What counts as well formed: an instruction (always, by its type: R48), a command word (R51's ranges, written apart from the decoder),
a caller's message input (R136) and the text of a string operand (R58). -/

namespace Sys2Proof

/-- R48: the operand of BYTE is a value in 0 to 255 and START and FINISH have none, so the type `Instr` holds no ill-formed
instruction. The check is written out so that a wider operand type could not slip past it. -/
def Instr.wellFormed : Instr → Bool
  | .byte16 b | .byte32 b => decide (b.toNat ≤ 255)
  | .start16 | .finish16 | .start32 | .finish32 => true

/-- The six ranges of reserved words, as R51 lists them. -/
def reservedRanges : List (Nat × Nat) :=
  [(0x000, 0x0FF), (0x400, 0x4FF), (0x101, 0x1FF), (0x501, 0x5FF), (0x301, 0x3FF), (0x701, 0x7FF)]

/-- A word is reserved iff it lies in one of R51's ranges. -/
def isReservedWord (w : CmdWord) : Bool :=
  reservedRanges.any fun r => decide (r.1 ≤ w.toNat) && decide (w.toNat ≤ r.2)

/-- R136: a caller's input is well formed iff it is present and every element is in 0 to 255. -/
def messageWellFormed : Option (List Int) → Bool
  | none => false
  | some xs => xs.all fun x => decide (0 ≤ x) && decide (x ≤ 255)

/-- R58: only the characters 0x20 to 0x7E may appear in a string operand. -/
def textWellFormed (cs : List Char) : Bool :=
  cs.all fun c => decide (0x20 ≤ c.toNat) && decide (c.toNat ≤ 0x7E)

end Sys2Proof
end

