-- ==== Sys2Proof/Decode.lean ====
section
/-! DEFINITION. Decoding and encoding of command words (30_encoding.md): field extraction, the total decode function, the encoder,
the match and mask table, and the host's reading of an opcode-table row. -/

namespace Sys2Proof

/-- R46: `u = cmd[10]`. -/
def unitField (w : CmdWord) : BitVec 1 := w.extractLsb' 10 1

/-- R46: `op = cmd[9:8]`. -/
def opField (w : CmdWord) : BitVec 2 := w.extractLsb' 8 2

/-- R46: `data = cmd[7:0]`. -/
def dataField (w : CmdWord) : Byte := w.extractLsb' 0 8

/-- R45: the unit a word addresses, 0 = U16 and 1 = U32. It is meaningful for reserved words too (R50). -/
def unitOf (w : CmdWord) : UnitId :=
  if unitField w = 0#1 then .u16 else .u32

/-- The instruction of a unit, an operation and a byte; START and FINISH take no byte. -/
def instrOf : UnitId → Op → Byte → Instr
  | .u16, .start, _ => .start16
  | .u16, .byte, b => .byte16 b
  | .u16, .finish, _ => .finish16
  | .u32, .start, _ => .start32
  | .u32, .byte, b => .byte32 b
  | .u32, .finish, _ => .finish32

/-- R50, in its own order of cases: total on 11-bit words, and a reserved word falls through to no neighbour (R51). -/
def decode (w : CmdWord) : Decoded :=
  if opField w = 0b01#2 then
    if dataField w = 0#8 then .legal (instrOf (unitOf w) .start 0#8) else .reserved (unitOf w) .startWithData
  else if opField w = 0b10#2 then .legal (instrOf (unitOf w) .byte (dataField w))
  else if opField w = 0b11#2 then
    if dataField w = 0#8 then .legal (instrOf (unitOf w) .finish 0#8) else .reserved (unitOf w) .finishWithData
  else .reserved (unitOf w) .opZero

/-- The unit an instruction addresses (R49, column `u`). -/
def Instr.unit : Instr → UnitId
  | .start16 | .byte16 _ | .finish16 => .u16
  | .start32 | .byte32 _ | .finish32 => .u32

/-- The operation of an instruction (R49, column `op`). -/
def Instr.op : Instr → Op
  | .start16 | .start32 => .start
  | .byte16 _ | .byte32 _ => .byte
  | .finish16 | .finish32 => .finish

/-- The field `data` of an instruction: the operand of BYTE, 0 for START and FINISH (R47). -/
def Instr.data : Instr → Byte
  | .byte16 b | .byte32 b => b
  | .start16 | .finish16 | .start32 | .finish32 => 0x00#8

/-- R45: 0 for U16, 1 for U32. -/
def unitCode : UnitId → BitVec 1
  | .u16 => 0b0#1
  | .u32 => 0b1#1

/-- R47: the values of `op`. -/
def opCode : Op → BitVec 2
  | .start => 0b01#2
  | .byte => 0b10#2
  | .finish => 0b11#2

/-- R45: the word of an instruction, its three fields from bit 10 down. -/
def encode (i : Instr) : CmdWord :=
  unitCode i.unit ++ opCode i.op ++ i.data

/-- One row of R49's table: a word `w` is the instruction iff `w & mask == match`. -/
structure PatternRow where
  mnemonic : String
  pattern : CmdWord
  mask : CmdWord
  deriving DecidableEq, Repr

/-- R49's selection test. -/
def rowSelects (r : PatternRow) (w : CmdWord) : Bool :=
  w &&& r.mask == r.pattern

/-- The six rows of R49. -/
def commandTable : List PatternRow :=
  [⟨"START16", 0x100#11, 0x7FF#11⟩, ⟨"BYTE16", 0x200#11, 0x700#11⟩, ⟨"FINISH16", 0x300#11, 0x7FF#11⟩,
   ⟨"START32", 0x500#11, 0x7FF#11⟩, ⟨"BYTE32", 0x600#11, 0x700#11⟩, ⟨"FINISH32", 0x700#11, 0x7FF#11⟩]

/-- The mnemonic of an instruction (R49, R57). -/
def Instr.mnemonic : Instr → String
  | .start16 => "START16"
  | .byte16 _ => "BYTE16"
  | .finish16 => "FINISH16"
  | .start32 => "START32"
  | .byte32 _ => "BYTE32"
  | .finish32 => "FINISH32"

/-- The command word that the opcode table's bits `w` stand for: the low `nbits` of `w`, every bit above them 0. The port is
11 bits wide (R17), so a number that needs a twelfth bit is no word. -/
def tableWord (nbits w : Nat) : Option CmdWord :=
  if w % 2 ^ nbits < 2 ^ 11 then some (BitVec.ofNat 11 (w % 2 ^ nbits)) else none

/-- The instruction the decoder reads from the opcode table's bits `w`; none for a reserved word. -/
def decodeTableWord (nbits w : Nat) : Option Instr :=
  match tableWord nbits w with
  | none => none
  | some c =>
    match decode c with
    | .legal i => some i
    | .reserved _ _ => none

end Sys2Proof
end

