-- ==== Sys2Proof/Machine/Flags.lean ====
section
/-! DEFINITION. The flags of a unit and its status word (R18): pure functions of `ph` and `fcause`. -/

namespace Sys2Proof.Machine

/-- R18, bit 0: `busy` = 1 iff `ph` = SHIFT. -/
def busy (c : Control) : Bool := c.ph == .shift

/-- R18, bit 1: `done` = 1 iff `ph` = DONE. -/
def doneFlag (c : Control) : Bool := c.ph == .done

/-- R18, bit 2: `flt` = 1 iff `ph` = FAULT. -/
def flt (c : Control) : Bool := c.ph == .fault

/-- R18: bits 4:3 `fcause`, bit 2 `flt`, bit 1 `done`, bit 0 `busy`. -/
def statusWord (c : Control) : BitVec 5 :=
  c.fcause ++ BitVec.ofBool (flt c) ++ BitVec.ofBool (doneFlag c) ++ BitVec.ofBool (busy c)

end Sys2Proof.Machine
end

