-- ==== Sys2Proof/Machine/Ops.lean ====
section
/-! DEFINITION. The named operations both units share: access to a unit's control registers, fault entry (R138), acceptance of a command with
the order of checks (R56, R139 to R141), and reset (R160). -/

namespace Sys2Proof.Machine

/-- The control registers of unit `u` (R10). -/
def State.ctl (s : State) : UnitId → Control
  | .u16 => s.u16.toControl
  | .u32 => s.u32.toControl

/-- Writes the control registers of unit `u` and nothing else (R3). -/
def State.setCtl (s : State) (u : UnitId) (c : Control) : State :=
  match u with
  | .u16 => { s with u16 := { s.u16 with toControl := c } }
  | .u32 => { s with u32 := { s.u32 with toControl := c } }

/-- The phase of unit `u` (R15). -/
def State.phase (s : State) (u : UnitId) : Phase := (s.ctl u).ph

/-- R20: the code of a cause. -/
def causeCode : Cause → BitVec 2
  | .illegalCommand => 1#2
  | .protocolError => 2#2

/-- R138, fault entry: `fcause <- cause; ph <- FAULT`; the data registers and the other unit are not written. -/
def raiseFault (u : UnitId) (cause : Cause) (s : State) : State :=
  s.setCtl u { s.ctl u with ph := .fault, fcause := causeCode cause }

/-- R139: START is allowed with no transaction open. -/
def allowsStart : Phase → Bool
  | .idle | .done => true
  | .active | .shift | .fault => false

/-- R139: BYTE and FINISH are allowed with a transaction open. -/
def allowsByteOrFinish : Phase → Bool
  | .active => true
  | .idle | .shift | .done | .fault => false

/-- What a word presented to unit `u` does before it is judged, in R140's order: held in SHIFT (R56), discarded in FAULT (R141). In every
other phase it is judged, by that phase. -/
def acceptAt (u : UnitId) (judge : Phase → State → State) (s : State) : Host.Outcome State Fault Refusal :=
  match s.phase u with
  | .shift | .fault => .next s
  | p => .next (judge p s)

/-- R137: a reserved word is IllegalCommand in every phase that judges it. -/
def acceptReserved (u : UnitId) (s : State) : Host.Outcome State Fault Refusal :=
  acceptAt u (fun _ => raiseFault u .illegalCommand) s

/-- R139: a legal command has its effect in the phases that allow it, and is ProtocolError in the others that judge it. -/
def acceptCommand (u : UnitId) (allowed : Phase → Bool) (effect : State → State) (s : State) :
    Host.Outcome State Fault Refusal :=
  acceptAt u (fun p t => if allowed p then effect t else raiseFault u .protocolError t) s

/-- R24, R160: both units to IDLE with no cause; the data registers get no defined value, so free values at index `n` (log 2). -/
def resetUnits (n : Nat) (s : State) : State :=
  { s with
    u16 :=
      { crc := Config.resetCrc16 n s.u16.crc
        wrk := Config.resetWrk16 n s.u16.wrk
        cnt := Config.resetCnt16 n s.u16.cnt
        ph := .idle
        fcause := 0#2 }
    u32 :=
      { crc := Config.resetCrc32 n s.u32.crc
        cnt := Config.resetCnt32 n s.u32.cnt
        ph := .idle
        fcause := 0#2 } }

/-- R160, R161: a step with `rst` asserted. No command is accepted and no unit steps; a word on the port must be presented again,
or is given up by the host (log 4). -/
def resetStep (withdrawn : Nat) (s : State) : State :=
  { resetUnits s.tick s with port := s.port.drop withdrawn }

end Sys2Proof.Machine
end

