-- ==== Sys2Proof/Machine/Crc16.lean ====
section
/-! DEFINITION. Unit U16, the CRC-16/ARC divider (41_crc16_arc.md): its micro-operations, its three commands and its own step. -/

namespace Sys2Proof.Machine

/-- R75, INIT16; `wrk` is not written. -/
def init16 (s : State) : State :=
  { s with u16 := { s.u16 with crc := Config.arc.init, cnt := 0#4, ph := .active } }

/-- R76, LOAD16; `crc` is not written. -/
def load16 (b : Byte) (s : State) : State :=
  { s with u16 := { s.u16 with wrk := zext16 (lowByte s.u16.crc ^^^ b), cnt := 8#4, ph := .shift } }

/-- R77, FINAL16; the XOR with XOROUT is written out although it is the identity (R66). -/
def final16 (s : State) : State :=
  { s with u16 := { s.u16 with crc := s.u16.crc ^^^ Config.arc.xorout, ph := .done } }

/-- R75: START16. -/
def execStart16 (s : State) : Host.Outcome State Fault Refusal :=
  acceptCommand .u16 allowsStart init16 s

/-- R76: BYTE16 b. -/
def execByte16 (b : Byte) (s : State) : Host.Outcome State Fault Refusal :=
  acceptCommand .u16 allowsByteOrFinish (load16 b) s

/-- R77: FINISH16. -/
def execFinish16 (s : State) : Host.Outcome State Fault Refusal :=
  acceptCommand .u16 allowsByteOrFinish final16 s

/-- R78, BITSTEP16; `crc` and `ph` are not written. -/
def bitStep16 (s : State) : State :=
  { s with u16 := { s.u16 with wrk := divStep Config.arc s.u16.wrk, cnt := s.u16.cnt - 1#4 } }

/-- R79, FOLD16; `wrk` and `cnt` are not written. -/
def foldStep16 (s : State) : State :=
  { s with u16 := { s.u16 with crc := highByteDown s.u16.crc ^^^ s.u16.wrk, ph := .active } }

/-- U16's own step (R78, R79): BITSTEP16 while `cnt` > 0, FOLD16 at `cnt` = 0, both in SHIFT only; in every other phase U16 has no
step of its own (R176) and the turn passes with nothing changed. -/
def ownStep16 (s : State) : Host.Outcome State Fault Refusal :=
  if s.u16.ph = .shift then
    if s.u16.cnt = 0#4 then .next (foldStep16 s) else .next (bitStep16 s)
  else .next s

end Sys2Proof.Machine
end

