-- ==== Sys2Proof/Machine/Crc32.lean ====
section
/-! DEFINITION. Unit U32, the CRC-32/ISO-HDLC divider (42_crc32_iso_hdlc.md): its micro-operations, its three commands and its own step. -/

namespace Sys2Proof.Machine

/-- R95, INIT32. -/
def init32 (s : State) : State :=
  { s with u32 := { s.u32 with crc := Config.isoHdlc.init, cnt := 0#4, ph := .active } }

/-- R96, LOAD32: bits 31:8 of `crc` are unchanged. -/
def load32 (b : Byte) (s : State) : State :=
  { s with u32 := { s.u32 with crc := s.u32.crc ^^^ zext32 b, cnt := 8#4, ph := .shift } }

/-- R97, FINAL32: the inversion, an unsigned 32-bit value (R65). -/
def final32 (s : State) : State :=
  { s with u32 := { s.u32 with crc := ~~~s.u32.crc, ph := .done } }

/-- R95: START32. -/
def execStart32 (s : State) : Host.Outcome State Fault Refusal :=
  acceptCommand .u32 allowsStart init32 s

/-- R96: BYTE32 b. -/
def execByte32 (b : Byte) (s : State) : Host.Outcome State Fault Refusal :=
  acceptCommand .u32 allowsByteOrFinish (load32 b) s

/-- R97: FINISH32. -/
def execFinish32 (s : State) : Host.Outcome State Fault Refusal :=
  acceptCommand .u32 allowsByteOrFinish final32 s

/-- R98, BITSTEP32: the step that finds `cnt` = 1 is the eighth and ends the fold. -/
def bitStep32 (s : State) : State :=
  { s with
    u32 := { s.u32 with
      crc := divStep Config.isoHdlc s.u32.crc
      cnt := s.u32.cnt - 1#4
      ph := if s.u32.cnt = 1#4 then .active else s.u32.ph } }

/-- U32's own step (R98), in SHIFT only; in every other phase U32 has no step of its own (R176) and the turn passes with nothing
changed. `cnt` = 0 in SHIFT, which no run reaches (R26), is a fault of the model: R64 counts never below 0 (log 5). -/
def ownStep32 (s : State) : Host.Outcome State Fault Refusal :=
  if s.u32.ph = .shift then
    if s.u32.cnt = 0#4 then .fault .cntUnderflow32 else .next (bitStep32 s)
  else .next s

end Sys2Proof.Machine
end

