-- ==== Sys2Proof/Machine/Dispatch.lean ====
section
/-! DEFINITION. One arm per command of the opcode table (R49): what presenting it does, in every phase of its unit. -/

namespace Sys2Proof.Machine

def exec (i : Instr) (s : State) : Host.Outcome State Fault Refusal :=
  match i with
  | .start16 => Sys2Proof.Machine.execStart16 s
  | .byte16 b => Sys2Proof.Machine.execByte16 b s
  | .finish16 => Sys2Proof.Machine.execFinish16 s
  | .start32 => Sys2Proof.Machine.execStart32 s
  | .byte32 b => Sys2Proof.Machine.execByte32 b s
  | .finish32 => Sys2Proof.Machine.execFinish32 s

end Sys2Proof.Machine
end

