-- ==== Sys2Proof/Machine/Ports.lean ====
section
/-! DEFINITION. The output ports and the host's reads of them (R17 to R19, R56): functions of the state. -/

namespace Sys2Proof.Machine

/-- R17: the word on port `cmd`, while the host presents one. -/
def cmd (s : State) : Option CmdWord := s.port.head?

/-- R17: 1 while the host presents a command. -/
def cmdValid (s : State) : Bool := (cmd s).isSome

/-- R56: `cmd_accept = cmd_valid and (unit(cmd[10]).ph != SHIFT)`. -/
def cmdAccept (s : State) : Bool :=
  match cmd s with
  | some w => !(busy (s.ctl (unitOf w)))
  | none => false

/-- R18: the status word of U16. -/
def status16 (s : State) : BitVec 5 := statusWord s.u16.toControl

/-- R18: the status word of U32. -/
def status32 (s : State) : BitVec 5 := statusWord s.u32.toControl

/-- R19: `res16` carries `crc` in DONE and no defined value otherwise. -/
def res16 (s : State) : Option Word16 :=
  if s.u16.ph = .done then some s.u16.crc else none

/-- R19: `res32` carries `crc` in DONE and no defined value otherwise. -/
def res32 (s : State) : Option Word32 :=
  if s.u32.ph = .done then some s.u32.crc else none

/-- R19, R177, 93 U6: the host's read of `res16`, refused where the port has no defined value. -/
def readRes16 (s : State) : Host.Outcome Word16 Fault Refusal :=
  match res16 s with
  | some v => .next v
  | none => .refused (.resultUndefined .u16)

/-- R19, R177, 93 U6: the host's read of `res32`, refused where the port has no defined value. -/
def readRes32 (s : State) : Host.Outcome Word32 Fault Refusal :=
  match res32 s with
  | some v => .next v
  | none => .refused (.resultUndefined .u32)

end Sys2Proof.Machine
end

