-- ==== Sys2Proof/Machine/Turns.lean ====
section
/-! DEFINITION. What one turn of each agent does: the host's command with the handshake (R56), a unit's own step (R176), reset (R161). -/

namespace Sys2Proof.Machine

/-- The unit that is not `u`. -/
def otherUnit : UnitId → UnitId
  | .u16 => .u32
  | .u32 => .u16

/-- How many free turns are left at counter `n` before a unit's turn is due, and whose. After it the other unit's is drawn, so the turn of
each unit comes again and again, at intervals of any length (R176, log 3). -/
def dueIn : Nat → Nat × UnitId
  | 0 => (Config.gap 0, .u16)
  | n + 1 =>
    match dueIn n with
    | (0, u) => (Config.gap (n + 1), otherUnit u)
    | (k + 1, u) => (k, u)

/-- SCHED subject to weak fairness of U16 and U32 (92 D32, R176): the due unit's turn, and the free value at every other counter. -/
def fairTurn (n : Nat) : Config.Turn :=
  match dueIn n with
  | (0, u) => .own u
  | (_ + 1, _) => Config.sched n

/-- The agent of the next step: the schedule's next turn, or past its end the turn of the fair free schedule (92 D32, log 3). -/
def State.turn (s : State) : Config.Turn :=
  match s.sched with
  | t :: _ => t
  | [] => fairTurn s.tick

/-- The state with the turn taken off the schedule and the counter advanced. -/
def State.advance (s : State) : State :=
  { s with sched := s.sched.tail, tick := s.tick + 1 }

/-- R50, R137: what an accepted word does. -/
def perform (d : Decoded) (s : State) : Host.Outcome State Fault Refusal :=
  match d with
  | .legal i => exec i s
  | .reserved u _ => acceptReserved u s

/-- R56: the presented word is taken off the port and performed iff its unit is not busy; otherwise it is held, unchanged and without
effect. With no word presented nothing happens. -/
def commandTurn (s : State) : Host.Outcome State Fault Refusal :=
  match s.port with
  | [] => .next s
  | w :: rest => if cmdAccept s then perform (decode w) { s with port := rest } else .next s

/-- A unit's own step (R78, R79, R98). -/
def ownStep (u : UnitId) (s : State) : Host.Outcome State Fault Refusal :=
  match u with
  | .u16 => ownStep16 s
  | .u32 => ownStep32 s

/-- R9, R161: one step is one agent's; with `rst` asserted nothing else happens in it. -/
def takeTurn (t : Config.Turn) (s : State) : Host.Outcome State Fault Refusal :=
  match t with
  | .command => commandTurn s
  | .own u => ownStep u s
  | .reset withdrawn => .next (resetStep withdrawn s)

/-- Places a word at the front of the port and gives the host the next turn (log 8). -/
def placeWord (c : CmdWord) (s : State) : State :=
  { s with port := c :: s.port, sched := .command :: s.sched }

end Sys2Proof.Machine
end

