-- ==== Sys2Proof/Machine/Step.lean ====
section
/-! DEFINITION. One step of the block (R9), and the host's way to place an instruction where the next step takes it (log 8). -/

namespace Sys2Proof.Machine

/-- R9: one atomic change of state by one agent. -/
def step (s : State) : Host.Outcome State Fault Refusal :=
  takeTurn s.turn s.advance

/-- The opcode table's word presented next, in a step that is the host's (log 8). -/
def State.withFetchWord (s : State) (nbits w : Nat) : State :=
  match tableWord nbits w with
  | some c => placeWord c s
  | none => s

end Sys2Proof.Machine
end

