-- ==== Sys2Proof/Machine/Assembler.lean ====
section
/-! DEFINITION. The textual form of commands and the two pseudo-instructions (R57, R58): one line of text to its commands. -/

namespace Sys2Proof.Machine

/-- The single quote of a character operand (R57). -/
def singleQuote : Char := Char.ofNat 0x27

/-- The double quote of a string operand (R58). -/
def doubleQuote : Char := Char.ofNat 0x22

/-- Space and tab separate the parts of a line (log 7). -/
def isBlank (c : Char) : Bool := c.toNat == 0x20 || c.toNat == 0x09

/-- The line without its leading blanks. -/
def skipBlanks : List Char → List Char
  | [] => []
  | c :: cs => if isBlank c then skipBlanks cs else c :: cs

/-- R57: nothing follows but blanks and a comment, which a semicolon starts. -/
def lineEnds (cs : List Char) : Bool :=
  match skipBlanks cs with
  | [] => true
  | c :: _ => c == ';'

/-- The value of a digit, in either case of the letters (log 7); 16 for a character that is no digit. -/
def digitValue (c : Char) : Nat :=
  if 0x30 ≤ c.toNat ∧ c.toNat ≤ 0x39 then c.toNat - 0x30
  else if 0x41 ≤ c.toNat ∧ c.toNat ≤ 0x46 then c.toNat - 0x41 + 10
  else if 0x61 ≤ c.toNat ∧ c.toNat ≤ 0x66 then c.toNat - 0x61 + 10
  else 16

/-- Reads the digits of `base` at the head of the text, from the value `n` on. -/
def readDigits (base : Nat) (n : Nat) : List Char → Nat × List Char
  | [] => (n, [])
  | c :: cs => if digitValue c < base then readDigits base (n * base + digitValue c) cs else (n, c :: cs)

/-- A number of at least one digit, in 0 to 255 (R57). -/
def readNumber (base : Nat) (cs : List Char) : Option (Byte × List Char) :=
  match cs with
  | [] => none
  | c :: _ =>
    if digitValue c < base then
      let r := readDigits base 0 cs
      if r.1 ≤ 255 then some (BitVec.ofNat 8 r.1, r.2) else none
    else none

/-- R57: a printable ASCII character, 0x20 to 0x7E. -/
def isPrintable (c : Char) : Bool := textWellFormed [c]

/-- The code of an ASCII character (R57, R58, 92 D25). -/
def charCode (c : Char) : Byte := BitVec.ofNat 8 c.toNat

/-- A character in single quotes (R57). -/
def readQuoted : List Char → Option (Byte × List Char)
  | c :: q :: rest => if isPrintable c && q == singleQuote then some (charCode c, rest) else none
  | _ => none

/-- The operand of BYTE (R57): decimal, 0x hexadecimal, 0b binary, or a character in single quotes. -/
def readOperand (cs : List Char) : Option (Byte × List Char) :=
  match cs with
  | '0' :: 'x' :: rest => readNumber 16 rest
  | '0' :: 'b' :: rest => readNumber 2 rest
  | c :: rest => if c == singleQuote then readQuoted rest else readNumber 10 cs
  | [] => none

/-- Operands separated by commas (R58); `fuel` bounds their number. -/
def readOperands : Nat → List Char → Option (List Byte × List Char)
  | 0, _ => none
  | fuel + 1, cs =>
    match readOperand (skipBlanks cs) with
    | none => none
    | some (b, rest) =>
      match skipBlanks rest with
      | ',' :: more =>
        match readOperands fuel more with
        | none => none
        | some (bs, r) => some (b :: bs, r)
      | r => some ([b], r)

/-- The rest of a string operand up to its closing quote; a character outside 0x20 to 0x7E is refused (R58, 93 U14). -/
def readString : List Char → Option (List Byte × List Char)
  | [] => none
  | c :: cs =>
    if c == doubleQuote then some ([], cs)
    else if isPrintable c then
      match readString cs with
      | none => none
      | some (bs, r) => some (charCode c :: bs, r)
    else none

/-- The operands of CRC16 and CRC32: none, a string, or bytes separated by commas (R58). -/
def readMessage (cs : List Char) : Option (List Byte × List Char) :=
  match skipBlanks cs with
  | [] => some ([], [])
  | c :: rest =>
    if c == ';' then some ([], c :: rest)
    else if c == doubleQuote then readString rest
    else readOperands (rest.length + 1) (c :: rest)

/-- R58: the expansion START; BYTE for every byte in order; FINISH, on unit `u`. -/
def expansion (u : UnitId) (msg : List Byte) : List Instr :=
  instrOf u .start 0#8 :: (msg.map (instrOf u .byte) ++ [instrOf u .finish 0#8])

/-- A command without an operand (R57). -/
def bareLine (i : Instr) (rest : List Char) : Option (List Instr) :=
  if lineEnds rest then some [i] else none

/-- BYTE and its one operand (R57). -/
def byteLine (u : UnitId) (rest : List Char) : Option (List Instr) :=
  match readOperand (skipBlanks rest) with
  | none => none
  | some (b, r) => if lineEnds r then some [instrOf u .byte b] else none

/-- A pseudo-instruction (R58). -/
def crcLine (u : UnitId) (rest : List Char) : Option (List Instr) :=
  match readMessage rest with
  | none => none
  | some (bs, r) => if lineEnds r then some (expansion u bs) else none

/-- Mnemonics are upper case letters and carry the unit as a suffix (R57). -/
def isMnemonicChar (c : Char) : Bool :=
  (decide (0x41 ≤ c.toNat) && decide (c.toNat ≤ 0x5A)) || (decide (0x30 ≤ c.toNat) && decide (c.toNat ≤ 0x39))

/-- What a mnemonic and the text after it stand for; none where R57 and R58 give the line no meaning. -/
def commandLine (name rest : List Char) : Option (List Instr) :=
  if name = "START16".toList then bareLine .start16 rest
  else if name = "BYTE16".toList then byteLine .u16 rest
  else if name = "FINISH16".toList then bareLine .finish16 rest
  else if name = "START32".toList then bareLine .start32 rest
  else if name = "BYTE32".toList then byteLine .u32 rest
  else if name = "FINISH32".toList then bareLine .finish32 rest
  else if name = "CRC16".toList then crcLine .u16 rest
  else if name = "CRC32".toList then crcLine .u32 rest
  else none

/-- R57: one command a line; an empty line or a line of comment stands for no command. The mnemonic is followed by a blank, a
comment or the end (log 7). -/
def assembleLine (line : List Char) : Option (List Instr) :=
  if lineEnds line then some []
  else
    let cs := skipBlanks line
    let rest := cs.dropWhile isMnemonicChar
    if lineEnds rest || rest.head?.any isBlank then commandLine (cs.takeWhile isMnemonicChar) rest else none

/-- The commands of a text of several lines, in order (R57). -/
def assemble : List (List Char) → Option (List Instr)
  | [] => some []
  | l :: ls =>
    match assembleLine l, assemble ls with
    | some is, some rest => some (is ++ rest)
    | _, _ => none

/-- R57: a command's text, the operand in decimal. -/
def renderInstr (i : Instr) : List Char :=
  match i with
  | .byte16 b | .byte32 b => i.mnemonic.toList ++ ' ' :: Nat.toDigits 10 b.toNat
  | .start16 | .finish16 | .start32 | .finish32 => i.mnemonic.toList

end Sys2Proof.Machine
end

