-- ==== Sys2Proof/Machine/Transaction.lean ====
section
/-! DEFINITION. The call-level functions (43_transaction.md), and the caller-side wrapper (R136). -/

namespace Sys2Proof.Machine

/-- R80: the effect of one BYTE16 on the register. -/
def fold16 (c : Word16) (b : Byte) : Word16 :=
  highByteDown c ^^^ divSteps Config.arc 8 (zext16 (lowByte c ^^^ b))

/-- R99: the effect of one BYTE32 on the register. -/
def fold32 (c : Word32) (b : Byte) : Word32 :=
  divSteps Config.isoHdlc 8 (c ^^^ zext32 b)

/-- R117: the register reached by folding a message from `c`. -/
def reg16 (c : Word16) (msg : List Byte) : Word16 := msg.foldl fold16 c

/-- R117: the register reached by folding a message from `c`. -/
def reg32 (c : Word32) (msg : List Byte) : Word32 := msg.foldl fold32 c

/-- R117: the register before the final transform. -/
def raw16 (msg : List Byte) : Word16 := reg16 Config.arc.init msg

/-- R117: the register before the final transform. -/
def raw32 (msg : List Byte) : Word32 := reg32 Config.isoHdlc.init msg

/-- R115. -/
def compute16 (msg : List Byte) : Word16 := raw16 msg ^^^ Config.arc.xorout

/-- R116. -/
def compute32 (msg : List Byte) : Word32 := ~~~(raw32 msg)

/-- R124: the inner loop of the generic routine for one byte, `zext_W` at any width. -/
def genericFold {w : Nat} (v : Config.Variant w) (c : BitVec w) (b : Byte) : BitVec w :=
  divSteps v 8 (c ^^^ b.setWidth w)

/-- R124: the one generic routine. -/
def genericCrc {w : Nat} (v : Config.Variant w) (msg : List Byte) : BitVec w :=
  msg.foldl (genericFold v) v.init ^^^ v.xorout

/-- R31, R48: the byte of an element in 0 to 255. -/
def byteOfInt (x : Int) : Byte := BitVec.ofInt 8 x

/-- R136: the caller-side wrapper up to the commands. An absent input or an element outside 0 to 255 is refused before any command is
issued; otherwise the transaction's words join those the host has to present. The wait for `done` and the read of `res` are
`doneFlag` and `readRes16`, `readRes32`. -/
def submit (u : UnitId) (input : Option (List Int)) (s : State) : Host.Outcome State Fault Refusal :=
  match input with
  | none => .refused .invalidInput
  | some xs =>
    if messageWellFormed (some xs) then
      .next { s with port := s.port ++ (expansion u (xs.map byteOfInt)).map encode }
    else .refused .invalidInput

/-- The words of a list that address unit `u` (R45: bit 10). -/
def wordsFor (u : UnitId) (ws : List CmdWord) : List CmdWord :=
  ws.filter fun w => unitOf w == u

end Sys2Proof.Machine
end

