-- ==== Sys2Proof/Safety.lean ====
section
/-! DEFINITION. What claims are stated in: a run of steps, the invariant of reachable states (R26), the end of a transaction (R179). -/

namespace Sys2Proof.Machine

/-- `n` steps, stopping at the first fault or refusal. -/
def run : Nat → State → Host.Outcome State Fault Refusal
  | 0, s => .next s
  | n + 1, s =>
    match step s with
    | .next t => run n t
    | .fault r => .fault r
    | .refused r => .refused r

/-- `n` steps under the endless schedule `σ`, from its beginning: the machine's own run over the first `n` turns. -/
def runUnder (σ : Nat → Config.Turn) (n : Nat) (s : State) : Host.Outcome State Fault Refusal :=
  run n { s with sched := (List.range n).map σ }

/-- R176, weak fairness of unit `u` in the run under `σ` from `s`: a step that stays enabled, that is a unit that stays in SHIFT, is eventually
taken. Nothing is assumed of the host or of the other unit. -/
def WeaklyFair (u : UnitId) (σ : Nat → Config.Turn) (s : State) : Prop :=
  ∀ n, (∀ m, n ≤ m → ∃ t, runUnder σ m s = .next t ∧ t.phase u = .shift) → ∃ m, n ≤ m ∧ σ m = .own u

/-- R26, R20, R143: `fcause` is nonzero iff `ph` = FAULT, and is never 3. -/
abbrev CauseInv (c : Control) : Prop :=
  (c.fcause ≠ 0#2 ↔ c.ph = .fault) ∧ c.fcause ≠ 3#2

/-- R26 for U16. -/
abbrev Inv16 (u : Unit16) : Prop :=
  CauseInv u.toControl ∧
  (u.ph = .active ∨ u.ph = .done → u.cnt = 0#4) ∧
  (u.ph = .shift → u.cnt.toNat ≤ 8) ∧
  (u.ph = .shift → u.cnt = 8#4 → u.wrk.toNat < 0x100)

/-- R26 for U32. -/
abbrev Inv32 (u : Unit32) : Prop :=
  CauseInv u.toControl ∧
  (u.ph = .active ∨ u.ph = .done → u.cnt = 0#4) ∧
  (u.ph = .shift → 1 ≤ u.cnt.toNat ∧ u.cnt.toNat ≤ 8)

/-- R26: the invariant of reachable states. The width bounds R26 also names hold by the types of the registers. -/
abbrev StateInv (s : State) : Prop := Inv16 s.u16 ∧ Inv32 s.u32

/-- A turn in which `rst` is asserted (R160). -/
def isReset : Config.Turn → Bool
  | .reset _ => true
  | .command | .own _ => false

/-- A word addressed to unit `u` is accepted in the step from `s` (R56). -/
def acceptsFor (u : UnitId) (s : State) : Bool :=
  decide (s.turn = .command) && cmdAccept s && ((cmd s).map unitOf == some u)

/-- The operation of a decoded word; none for a reserved one (R47, R51). -/
def opOf : Decoded → Option Op
  | .legal i => some i.op
  | .reserved _ _ => none

/-- The micro-operation the table of R139 names for a command its phase allows: INIT, LOAD or FINAL (R75 to R77, R95 to R97). -/
def microOp : Instr → State → State
  | .start16 => init16
  | .byte16 b => load16 b
  | .finish16 => final16
  | .start32 => init32
  | .byte32 b => load32 b
  | .finish32 => final32

/-- The table of R139 with R137 and R141: the phase after a word is presented to a unit in phase `p`. -/
def phaseAfter (p : Phase) (op : Option Op) : Phase :=
  match p, op with
  | .shift, _ => .shift
  | .fault, _ => .fault
  | .idle, some .start => .active
  | .done, some .start => .active
  | .active, some .byte => .shift
  | .active, some .finish => .done
  | .idle, _ => .fault
  | .done, _ => .fault
  | .active, _ => .fault

/-- R78, R79, R98: the value of `cnt` at which a unit's own step ends the fold. -/
def lastCnt : UnitId → BitVec 4
  | .u16 => 0#4
  | .u32 => 1#4

/-- R15: the phase of unit `u` after the step from `s`. -/
def nextPhase (u : UnitId) (s : State) : Phase :=
  match s.turn with
  | .reset _ => .idle
  | .own v => if v = u ∧ s.phase u = .shift ∧ (s.ctl u).cnt = lastCnt u then .active else s.phase u
  | .command =>
    match cmd s with
    | none => s.phase u
    | some w => if unitOf w = u then phaseAfter (s.phase u) (opOf (decode w)) else s.phase u

/-- R80, R99, R176: the steps unit `u` still has to take by itself before it leaves SHIFT. -/
def ownStepsLeft (u : UnitId) (s : State) : Nat :=
  match u with
  | .u16 => if s.u16.ph = .shift then s.u16.cnt.toNat + 1 else 0
  | .u32 => if s.u32.ph = .shift then s.u32.cnt.toNat else 0

/-- R80: what `crc` of U16 is once the steps of the fold it has left are taken. -/
def settled16 (u : Unit16) : Word16 :=
  if u.ph = .shift then highByteDown u.crc ^^^ divSteps Config.arc u.cnt.toNat u.wrk else u.crc

/-- R99: what `crc` of U32 is once the steps of the fold it has left are taken. -/
def settled32 (u : Unit32) : Word32 :=
  if u.ph = .shift then divSteps Config.isoHdlc u.cnt.toNat u.crc else u.crc

/-- R118: where a transaction of the message `msg` on U16 can be: all its words to come; some bytes `pre` accepted and the words of the
others and FINISH16 to come; or over, with the result. -/
def Transaction16 (msg : List Byte) (s : State) : Prop :=
  ((s.u16.ph = .idle ∨ s.u16.ph = .done) ∧ wordsFor .u16 s.port = (expansion .u16 msg).map encode) ∨
  (∃ pre post, msg = pre ++ post ∧ wordsFor .u16 s.port = (post.map Instr.byte16 ++ [Instr.finish16]).map encode ∧
    (s.u16.ph = .active ∨ s.u16.ph = .shift) ∧ settled16 s.u16 = raw16 pre) ∨
  (s.u16.ph = .done ∧ wordsFor .u16 s.port = [] ∧ s.u16.crc = compute16 msg)

/-- R118, for U32. -/
def Transaction32 (msg : List Byte) (s : State) : Prop :=
  ((s.u32.ph = .idle ∨ s.u32.ph = .done) ∧ wordsFor .u32 s.port = (expansion .u32 msg).map encode) ∨
  (∃ pre post, msg = pre ++ post ∧ wordsFor .u32 s.port = (post.map Instr.byte32 ++ [Instr.finish32]).map encode ∧
    (s.u32.ph = .active ∨ s.u32.ph = .shift) ∧ settled32 s.u32 = raw32 pre) ∨
  (s.u32.ph = .done ∧ wordsFor .u32 s.port = [] ∧ s.u32.crc = compute32 msg)

/-- R179: a transaction on unit `u` is over in DONE (good end) or FAULT (bad end). -/
def goodEnd (u : UnitId) (s : State) : Bool := doneFlag (s.ctl u)

/-- R179: the bad end. -/
def badEnd (u : UnitId) (s : State) : Bool := flt (s.ctl u)

end Sys2Proof.Machine
end

