-- ==== Sys2Proof/Certificates/Slice0/Obligations.lean ====
section
/-! DEFINITION. The statements for the provers: each formalises rules of spec/ over every state, word, byte or schedule. -/

open Sys2Proof Sys2Proof.Machine

/-! ### Encoding (30_encoding.md) -/

/-- Decoding and encoding are inverse: a word decodes to an instruction iff it is that instruction's word, with every operand at every
value (R49, R50). -/
def Obligations.DecodeInvertsEncode : Prop :=
  ∀ (w : CmdWord) (i : Instr), decode w = .legal i ↔ w = encode i

/-- R49: the words of the six rows, the numbers of legal and reserved words, and the patterns' disjointness. -/
def Obligations.CommandTableSelectsWords : Prop :=
  (∀ w : CmdWord,
    (decode w = .legal .start16 ↔ w &&& 0x7FF#11 = 0x100#11) ∧
    ((∃ b, decode w = .legal (.byte16 b)) ↔ w &&& 0x700#11 = 0x200#11) ∧
    (∀ b : Byte, decode w = .legal (.byte16 b) ↔ w.toNat = 0x200 + b.toNat) ∧
    (decode w = .legal .finish16 ↔ w &&& 0x7FF#11 = 0x300#11) ∧
    (decode w = .legal .start32 ↔ w &&& 0x7FF#11 = 0x500#11) ∧
    ((∃ b, decode w = .legal (.byte32 b)) ↔ w &&& 0x700#11 = 0x600#11) ∧
    (∀ b : Byte, decode w = .legal (.byte32 b) ↔ w.toNat = 0x600 + b.toNat) ∧
    (decode w = .legal .finish32 ↔ w &&& 0x7FF#11 = 0x700#11)) ∧
  commandTable.Pairwise (fun a b => ∀ w : CmdWord, (rowSelects a w && rowSelects b w) = false) ∧
  ((List.range 2048).filter fun n => (opOf (decode (BitVec.ofNat 11 n))).isSome).length = 516 ∧
  ((List.range 2048).filter fun n => (opOf (decode (BitVec.ofNat 11 n))).isNone).length = 1532

/-- R50: decoding read off the word as a number, so that no bit operation of the decoder is taken on trust. -/
def Obligations.DecodeReadsFieldsAsNumbers : Prop :=
  ∀ w : CmdWord,
    let u : UnitId := if w.toNat / 1024 = 1 then .u32 else .u16
    let op := w.toNat / 256 % 4
    let data := w.toNat % 256
    (op = 1 ∧ data = 0 → decode w = .legal (instrOf u .start 0#8)) ∧
    (op = 2 → decode w = .legal (instrOf u .byte (BitVec.ofNat 8 data))) ∧
    (op = 3 ∧ data = 0 → decode w = .legal (instrOf u .finish 0#8)) ∧
    (op = 0 ∨ (op = 1 ∧ data ≠ 0) ∨ (op = 3 ∧ data ≠ 0) → ∃ k, decode w = .reserved u k)

/-- R45: the word as a number, for the fields of any word and for the word of any instruction. -/
def Obligations.WordIsItsFieldsAsNumber : Prop :=
  (∀ w : CmdWord, w.toNat = (unitField w).toNat * 1024 + (opField w).toNat * 256 + (dataField w).toNat) ∧
  (∀ i : Instr, (encode i).toNat = (unitCode i.unit).toNat * 1024 + (opCode i.op).toNat * 256 + i.data.toNat)

/-- R51 and R137: the reserved words are exactly R51's ranges; one that is accepted does nothing but the fault entry, with cause 1, on the
unit of its bit 10; and no legal word raises cause 1 in any unit. -/
def Obligations.ReservedWordRaisesIllegalCommand : Prop :=
  (∀ w : CmdWord, (∃ u k, decode w = .reserved u k) ↔
    (w.toNat ≤ 0x0FF ∨ (0x400 ≤ w.toNat ∧ w.toNat ≤ 0x4FF) ∨ (0x101 ≤ w.toNat ∧ w.toNat ≤ 0x1FF) ∨
      (0x501 ≤ w.toNat ∧ w.toNat ≤ 0x5FF) ∨ (0x301 ≤ w.toNat ∧ w.toNat ≤ 0x3FF) ∨ (0x701 ≤ w.toNat ∧ w.toNat ≤ 0x7FF))) ∧
  (∀ (w : CmdWord) (rest : List CmdWord) (u : UnitId) (k : ReservedKind) (s : State),
    decode w = .reserved u k → s.turn = .command → s.port = w :: rest →
    (u = if w.getLsbD 10 then .u32 else .u16) ∧
    (u = .u16 → s.u16.ph = .idle ∨ s.u16.ph = .active ∨ s.u16.ph = .done →
      step s = .next { s.advance with port := rest, u16 := { s.u16 with ph := .fault, fcause := 1#2 } }) ∧
    (u = .u32 → s.u32.ph = .idle ∨ s.u32.ph = .active ∨ s.u32.ph = .done →
      step s = .next { s.advance with port := rest, u32 := { s.u32 with ph := .fault, fcause := 1#2 } })) ∧
  (∀ (w : CmdWord) (rest : List CmdWord) (i : Instr) (s t : State) (u : UnitId),
    decode w = .legal i → s.turn = .command → s.port = w :: rest → step s = .next t →
    (s.ctl u).fcause ≠ 1#2 → (t.ctl u).fcause ≠ 1#2)

/-- Words written out bit by bit from R49 and V30: `u` (1 bit), `op` (2 bits), `data` (8 bits). -/
def Obligations.WordsWrittenOutDecode : Prop :=
  decode 0b00100000000#11 = .legal .start16 ∧
  decode 0b01010100011#11 = .legal (.byte16 0xA3#8) ∧
  decode 0b01100000000#11 = .legal .finish16 ∧
  decode 0b10100000000#11 = .legal .start32 ∧
  decode 0b11000110001#11 = .legal (.byte32 0x31#8) ∧
  decode 0b11100000000#11 = .legal .finish32 ∧
  decode 0b00000000000#11 = .reserved .u16 .opZero ∧
  decode 0b10110100011#11 = .reserved .u32 .startWithData ∧
  decode 0b11111111111#11 = .reserved .u32 .finishWithData

/-- The opcode table's bits of an instruction reach the decoder whole, and placed for the next step they run as that instruction. That a word
is placed by `State.withFetchWord` is the model's choice (log 8). -/
def Obligations.PlacedWordRunsNext : Prop :=
  ∀ (i : Instr) (nbits : Nat) (s : State), 11 ≤ nbits →
    decodeTableWord nbits (encode i).toNat = some i ∧
    (s.phase i.unit ≠ .shift → step (s.withFetchWord nbits (encode i).toNat) = exec i { s with tick := s.tick + 1 })

/-! ### The step and the handshake -/

/-- A step runs the decoded instruction: in the host's turn, the word on the port that decodes to `i` for a unit that is not busy (R56) is taken
off the port and `exec i` is the step; the turn is taken off the schedule and the counter advances (the model's own fields, log 3, log 4). -/
def Obligations.StepRunsDecodedInstruction : Prop :=
  ∀ (s : State) (w : CmdWord) (rest : List CmdWord) (i : Instr),
    s.turn = .command → s.port = w :: rest → decode w = .legal i → s.phase i.unit ≠ .shift →
    step s = exec i { s with port := rest, sched := s.sched.tail, tick := s.tick + 1 }

/-- R56: `cmd_accept` is 1 exactly when a word is presented and its unit is not in SHIFT; then the word is taken off the port and performed,
one word a step; otherwise the host's turn has no effect and the word stays on the port, with every word behind it. -/
def Obligations.BusyUnitHoldsThePort : Prop :=
  ∀ s : State,
    (cmdAccept s = true ↔ ∃ w rest, s.port = w :: rest ∧ s.phase (unitOf w) ≠ .shift) ∧
    (∀ w rest, s.turn = .command → s.port = w :: rest → s.phase (unitOf w) ≠ .shift →
      step s = perform (decode w) { s.advance with port := rest }) ∧
    (s.turn = .command → cmdAccept s = false → step s = .next s.advance)

/-- R139: the phase after each command in each phase is that of the table, the cause becomes 2 exactly in the table's five ProtocolError cells,
where no data register changes; SHIFT and FAULT cells change nothing, and the other cells are the micro-operation they name. -/
def Obligations.CommandPhaseTable : Prop :=
  ∀ (i : Instr) (s : State), ∃ t, exec i s = .next t ∧
    t.phase i.unit = phaseAfter (s.phase i.unit) (some i.op) ∧
    (let p := s.phase i.unit
     let violates := (i.op = .start ∧ p = .active) ∨ (i.op ≠ .start ∧ (p = .idle ∨ p = .done))
     (violates → (t.ctl i.unit).fcause = 2#2) ∧
     (¬violates → (t.ctl i.unit).fcause = (s.ctl i.unit).fcause) ∧
     (violates → t.u16.crc = s.u16.crc ∧ t.u16.wrk = s.u16.wrk ∧ t.u32.crc = s.u32.crc ∧ (t.ctl i.unit).cnt = (s.ctl i.unit).cnt) ∧
     (p = .shift ∨ p = .fault → t = s) ∧
     (¬violates → p ≠ .shift → p ≠ .fault → t = microOp i s))

/-! ### Unit U16 (41_crc16_arc.md) -/

/-- R75. -/
def Obligations.Start16OpensTransaction : Prop :=
  ∀ s : State, decode 0x100#11 = .legal .start16 ∧
    (s.u16.ph = .idle ∨ s.u16.ph = .done → ∃ t, exec .start16 s = .next t ∧
      t = { s with u16 := { s.u16 with crc := 0x0000#16, cnt := 0#4, ph := .active } } ∧
      busy t.u16.toControl = false ∧ doneFlag t.u16.toControl = false ∧ flt t.u16.toControl = false) ∧
    (s.u16.ph = .active → exec .start16 s = .next { s with u16 := { s.u16 with ph := .fault, fcause := 2#2 } }) ∧
    (s.u16.ph = .fault → exec .start16 s = .next s) ∧
    (s.u16.ph = .shift → exec .start16 s = .next s ∧
      ∀ rest, s.turn = .command → s.port = 0x100#11 :: rest → step s = .next s.advance)

/-- R76. -/
def Obligations.Byte16LoadsWorkingValue : Prop :=
  ∀ (b : Byte) (s : State), decode (0x200#11 + b.setWidth 11) = .legal (.byte16 b) ∧
    (s.u16.ph = .active → ∃ t, exec (.byte16 b) s = .next t ∧
      t = { s with u16 := { s.u16 with wrk := (s.u16.crc &&& 0x00FF#16) ^^^ b.setWidth 16, cnt := 8#4, ph := .shift } } ∧
      t.u16.wrk.toNat ≤ 0x00FF ∧ busy t.u16.toControl = true) ∧
    (s.u16.ph = .idle ∨ s.u16.ph = .done →
      exec (.byte16 b) s = .next { s with u16 := { s.u16 with ph := .fault, fcause := 2#2 } }) ∧
    (s.u16.ph = .fault → exec (.byte16 b) s = .next s) ∧
    (s.u16.ph = .shift → exec (.byte16 b) s = .next s ∧
      ∀ rest, s.turn = .command → s.port = (0x200#11 + b.setWidth 11) :: rest → step s = .next s.advance)

/-- R77: the final XOR with 0x0000 leaves `crc` as it is, and `res16` shows it from this step on. -/
def Obligations.Finish16PublishesRegister : Prop :=
  ∀ s : State, decode 0x300#11 = .legal .finish16 ∧
    (s.u16.ph = .active → ∃ t, exec .finish16 s = .next t ∧ t = { s with u16 := { s.u16 with ph := .done } } ∧
      doneFlag t.u16.toControl = true ∧ res16 t = some s.u16.crc) ∧
    (s.u16.ph = .idle ∨ s.u16.ph = .done →
      exec .finish16 s = .next { s with u16 := { s.u16 with ph := .fault, fcause := 2#2 } }) ∧
    (s.u16.ph = .fault → exec .finish16 s = .next s) ∧
    (s.u16.ph = .shift → exec .finish16 s = .next s ∧
      ∀ rest, s.turn = .command → s.port = 0x300#11 :: rest → step s = .next s.advance)

/-- R78: in U16's turn, in SHIFT with `cnt` > 0, one division step on `wrk`; `crc` and `ph` are not written; with `ph` not SHIFT nothing
happens. -/
def Obligations.BitStep16DividesWorkingValue : Prop :=
  ∀ s : State, s.turn = .own .u16 →
    (s.u16.ph = .shift → s.u16.cnt ≠ 0#4 → ∃ t, step s = .next t ∧
      t = { s.advance with u16 := { s.u16 with
        wrk := if s.u16.wrk.getLsbD 0 then (s.u16.wrk >>> 1) ^^^ 0xA001#16 else s.u16.wrk >>> 1
        cnt := s.u16.cnt - 1#4 } } ∧
      t.u16.cnt.toNat + 1 = s.u16.cnt.toNat) ∧
    (s.u16.ph ≠ .shift → step s = .next s.advance)

/-- R79: in U16's turn, in SHIFT with `cnt` = 0, and only there, the fold ends. -/
def Obligations.Fold16EndsTheFold : Prop :=
  ∀ s : State, s.turn = .own .u16 →
    (s.u16.ph = .shift → s.u16.cnt = 0#4 → ∃ t, step s = .next t ∧
      t = { s.advance with u16 := { s.u16 with crc := (s.u16.crc >>> 8) ^^^ s.u16.wrk, ph := .active } } ∧
      busy t.u16.toControl = false ∧
      (∀ k, 8 ≤ k → k < 16 → t.u16.crc.getLsbD k = s.u16.wrk.getLsbD k) ∧
      (∀ k, k < 8 → t.u16.crc.getLsbD k = (s.u16.wrk.getLsbD k ^^ s.u16.crc.getLsbD (k + 8)))) ∧
    (s.u16.ph ≠ .shift ∨ s.u16.cnt ≠ 0#4 → ∃ t, step s = .next t ∧ t.u16.crc = s.u16.crc ∧ t.u16.ph = s.u16.ph)

/-! ### Unit U32 (42_crc32_iso_hdlc.md) -/

/-- R95. -/
def Obligations.Start32OpensTransaction : Prop :=
  ∀ s : State, decode 0x500#11 = .legal .start32 ∧
    (s.u32.ph = .idle ∨ s.u32.ph = .done → ∃ t, exec .start32 s = .next t ∧
      t = { s with u32 := { s.u32 with crc := 0xFFFFFFFF#32, cnt := 0#4, ph := .active } } ∧
      busy t.u32.toControl = false ∧ doneFlag t.u32.toControl = false ∧ flt t.u32.toControl = false) ∧
    (s.u32.ph = .active → exec .start32 s = .next { s with u32 := { s.u32 with ph := .fault, fcause := 2#2 } }) ∧
    (s.u32.ph = .fault → exec .start32 s = .next s) ∧
    (s.u32.ph = .shift → exec .start32 s = .next s ∧
      ∀ rest, s.turn = .command → s.port = 0x500#11 :: rest → step s = .next s.advance)

/-- R96: bits 31:8 of `crc` are unchanged. -/
def Obligations.Byte32XorsByteIntoRegister : Prop :=
  ∀ (b : Byte) (s : State), decode (0x600#11 + b.setWidth 11) = .legal (.byte32 b) ∧
    (s.u32.ph = .active → ∃ t, exec (.byte32 b) s = .next t ∧
      t = { s with u32 := { s.u32 with crc := s.u32.crc ^^^ b.setWidth 32, cnt := 8#4, ph := .shift } } ∧
      (∀ k, 8 ≤ k → t.u32.crc.getLsbD k = s.u32.crc.getLsbD k) ∧
      (∀ k, k < 8 → t.u32.crc.getLsbD k = (s.u32.crc.getLsbD k ^^ b.getLsbD k)) ∧ busy t.u32.toControl = true) ∧
    (s.u32.ph = .idle ∨ s.u32.ph = .done →
      exec (.byte32 b) s = .next { s with u32 := { s.u32 with ph := .fault, fcause := 2#2 } }) ∧
    (s.u32.ph = .fault → exec (.byte32 b) s = .next s) ∧
    (s.u32.ph = .shift → exec (.byte32 b) s = .next s ∧
      ∀ rest, s.turn = .command → s.port = (0x600#11 + b.setWidth 11) :: rest → step s = .next s.advance)

/-- R97 and R65: the inversion, in its three forms, published on `res32` from this step on. -/
def Obligations.Finish32PublishesInversion : Prop :=
  ∀ s : State, decode 0x700#11 = .legal .finish32 ∧
    (s.u32.ph = .active → ∃ t, exec .finish32 s = .next t ∧ t = { s with u32 := { s.u32 with crc := ~~~s.u32.crc, ph := .done } } ∧
      t.u32.crc = s.u32.crc ^^^ 0xFFFFFFFF#32 ∧ t.u32.crc.toNat = 0xFFFFFFFF - s.u32.crc.toNat ∧
      doneFlag t.u32.toControl = true ∧ res32 t = some (~~~s.u32.crc)) ∧
    (s.u32.ph = .idle ∨ s.u32.ph = .done →
      exec .finish32 s = .next { s with u32 := { s.u32 with ph := .fault, fcause := 2#2 } }) ∧
    (s.u32.ph = .fault → exec .finish32 s = .next s) ∧
    (s.u32.ph = .shift → exec .finish32 s = .next s ∧
      ∀ rest, s.turn = .command → s.port = 0x700#11 :: rest → step s = .next s.advance)

/-- R98: in U32's turn, in SHIFT, one division step on `crc`, and the step that finds `cnt` = 1 ends the fold; with `ph` not SHIFT nothing
happens. In SHIFT `cnt` > 0, which R98 takes from R26 and `InvariantIsKept` states. -/
def Obligations.BitStep32DividesRegister : Prop :=
  ∀ s : State, s.turn = .own .u32 →
    (s.u32.ph = .shift → s.u32.cnt ≠ 0#4 → ∃ t, step s = .next t ∧
      t = { s.advance with u32 := { s.u32 with
        crc := if s.u32.crc.getLsbD 0 then (s.u32.crc >>> 1) ^^^ 0xEDB88320#32 else s.u32.crc >>> 1
        cnt := s.u32.cnt - 1#4
        ph := if s.u32.cnt = 1#4 then .active else .shift } } ∧
      t.u32.cnt.toNat + 1 = s.u32.cnt.toNat ∧
      (s.u32.cnt = 1#4 → busy t.u32.toControl = false)) ∧
    (s.u32.ph ≠ .shift → step s = .next s.advance)

/-! ### Faults (60_exceptions.md) -/

/-- R138: fault entry writes `fcause` and `ph` of its unit and nothing else; `flt` is 1, `done` and `busy` are 0. -/
def Obligations.FaultEntryWritesCauseAndPhase : Prop :=
  ∀ (cause : Cause) (s : State),
    raiseFault .u16 cause s =
      { s with u16 := { s.u16 with ph := .fault, fcause := if cause = .illegalCommand then 1#2 else 2#2 } } ∧
    raiseFault .u32 cause s =
      { s with u32 := { s.u32 with ph := .fault, fcause := if cause = .illegalCommand then 1#2 else 2#2 } } ∧
    (∀ u, flt ((raiseFault u cause s).ctl u) = true ∧ doneFlag ((raiseFault u cause s).ctl u) = false ∧
      busy ((raiseFault u cause s).ctl u) = false)

/-- R141: in FAULT a unit changes in no step but a reset's, whatever is presented and whoever moves; a word addressed to it is accepted and
discarded; a reset leaves FAULT. -/
def Obligations.FaultIsStickyUntilReset : Prop :=
  (∀ s t : State, step s = .next t → isReset s.turn = false →
    (s.u16.ph = .fault → t.u16 = s.u16) ∧ (s.u32.ph = .fault → t.u32 = s.u32)) ∧
  (∀ (s : State) (w : CmdWord) (rest : List CmdWord), s.turn = .command → s.port = w :: rest → s.phase (unitOf w) = .fault →
    step s = .next { s.advance with port := rest }) ∧
  (∀ s : State, isReset s.turn = true → ∃ t, step s = .next t ∧ t.u16.ph = .idle ∧ t.u32.ph = .idle)

/-- R140: with a word on the port, reset comes before everything and the word is not accepted (it stays, unless the host gives it up, log 4); then the hold, then the discard, then IllegalCommand, then ProtocolError, then
the command's own rule. -/
def Obligations.ChecksAreMadeInOrder : Prop :=
  ∀ (s : State) (w : CmdWord) (rest : List CmdWord), s.port = w :: rest →
    (∀ n, s.turn = .reset n → ∃ t, step s = .next t ∧ t.phase .u16 = .idle ∧ t.phase .u32 = .idle ∧
      (n = 0 → t.port = s.port)) ∧
    (s.turn = .command →
      step s =
        if s.phase (unitOf w) = .shift then .next s.advance
        else if s.phase (unitOf w) = .fault then .next { s.advance with port := rest }
        else match decode w with
          | .reserved u _ => .next (raiseFault u .illegalCommand { s.advance with port := rest })
          | .legal i =>
            if (i.op = .start ↔ s.phase (unitOf w) = .active) then
              .next (raiseFault i.unit .protocolError { s.advance with port := rest })
            else exec i { s.advance with port := rest })

/-! ### Reset (70_reset_and_hazards.md) -/

/-- R160, R161: a reset turn, in any state, puts both units into IDLE with no cause; the status words read 0 and no result is shown, whatever the
units were doing; no word is accepted, so the port keeps all the host does not give up. -/
def Obligations.ResetTurnClearsBothUnits : Prop :=
  ∀ (s : State) (n : Nat), s.turn = .reset n → ∃ t, step s = .next t ∧
    t.u16.ph = .idle ∧ t.u16.fcause = 0#2 ∧ t.u32.ph = .idle ∧ t.u32.fcause = 0#2 ∧
    status16 t = 0b00000#5 ∧ status32 t = 0b00000#5 ∧ res16 t = none ∧ res32 t = none ∧
    (n = 0 → t.port = s.port)

/-- The model's own fields at a reset (log 3, log 4): after a reset turn the host presents the words it did not give up, the turn is taken off and
the counter advances; and in `State.reset`, by log 4's choice of the empty list, no command is presented. -/
def Obligations.ResetTurnKeepsTheOtherWords : Prop :=
  (∀ (s : State) (n : Nat), s.turn = .reset n → ∃ t, step s = .next t ∧
    t.port = s.port.drop n ∧ t.sched = s.sched.tail ∧ t.tick = s.tick + 1) ∧
  cmdValid State.reset = false

/-- R24, for the values the spec gives. -/
def Obligations.ResetStateIsIdle : Prop :=
  State.reset.u16.ph = .idle ∧ State.reset.u16.fcause = 0#2 ∧ State.reset.u32.ph = .idle ∧ State.reset.u32.fcause = 0#2 ∧
  status16 State.reset = 0b00000#5 ∧ status32 State.reset = 0b00000#5 ∧
  res16 State.reset = none ∧ res32 State.reset = none

/-! ### Frames -/

/-- The frame of the six commands: the other unit, the port and the schedule are untouched, and of its own unit START never writes `wrk`, BYTE16
never `crc`, FINISH never `wrk` or `cnt`, FINISH16 never `crc`; `fcause` changes only where the unit enters FAULT. -/
def Obligations.CommandsLeaveTheRestUnchanged : Prop :=
  ∀ (i : Instr) (s t : State), exec i s = .next t →
    t.port = s.port ∧ t.sched = s.sched ∧ t.tick = s.tick ∧
    (i.unit = .u16 → t.u32 = s.u32) ∧ (i.unit = .u32 → t.u16 = s.u16) ∧
    ((t.ctl i.unit).fcause ≠ (s.ctl i.unit).fcause → t.phase i.unit = .fault ∧ s.phase i.unit ≠ .fault) ∧
    (match i with
     | .start16 => t.u16.wrk = s.u16.wrk
     | .byte16 _ => t.u16.crc = s.u16.crc
     | .finish16 => t.u16.crc = s.u16.crc ∧ t.u16.wrk = s.u16.wrk ∧ t.u16.cnt = s.u16.cnt
     | .start32 => True
     | .byte32 _ => True
     | .finish32 => t.u32.cnt = s.u32.cnt)

/-- The frame of a unit's own turn: the other unit, the port and the unit's cause are untouched; BITSTEP16 does not write `crc`, FOLD16 writes
neither `wrk` nor `cnt`. -/
def Obligations.OwnStepsLeaveTheRestUnchanged : Prop :=
  ∀ (u : UnitId) (s t : State), s.turn = .own u → step s = .next t →
    t.port = s.port ∧ t.sched = s.sched.tail ∧ t.tick = s.tick + 1 ∧ (t.ctl u).fcause = (s.ctl u).fcause ∧
    (u = .u16 → t.u32 = s.u32 ∧ (s.u16.cnt ≠ 0#4 → t.u16.crc = s.u16.crc) ∧
      (s.u16.cnt = 0#4 → t.u16.wrk = s.u16.wrk ∧ t.u16.cnt = s.u16.cnt)) ∧
    (u = .u32 → t.u16 = s.u16)

/-- R3: what a word presented to a unit, legal or reserved, or the unit's own turn does, does not depend on the other unit, and the other unit
is not written. -/
def Obligations.UnitsAreIndependent : Prop :=
  (∀ (w : CmdWord) (s t : State) (x : Unit32), s.turn = .command → cmd s = some w → unitOf w = .u16 → step s = .next t →
    t.u32 = s.u32 ∧ step { s with u32 := x } = .next { t with u32 := x }) ∧
  (∀ (w : CmdWord) (s t : State) (x : Unit16), s.turn = .command → cmd s = some w → unitOf w = .u32 → step s = .next t →
    t.u16 = s.u16 ∧ step { s with u16 := x } = .next { t with u16 := x }) ∧
  (∀ (s t : State) (x : Unit32), s.turn = .own .u16 → step s = .next t →
    t.u32 = s.u32 ∧ step { s with u32 := x } = .next { t with u32 := x }) ∧
  (∀ (s t : State) (x : Unit16), s.turn = .own .u32 → step s = .next t →
    t.u16 = s.u16 ∧ step { s with u16 := x } = .next { t with u16 := x })

/-- Steps of U16 and steps of U32 commute: two schedules of own turns that are rearrangements of each other end alike, from any state
(the sentence of R42 that the spec marks as its own inference). -/
def Obligations.OwnTurnsCommute : Prop :=
  ∀ (s : State) (a b rest : List Config.Turn), (∀ t ∈ a, ∃ u, t = .own u) → a.Perm b →
    run a.length { s with sched := a ++ rest } = run b.length { s with sched := b ++ rest }

/-! ### Invariants and whole-machine rules -/

/-- Every step keeps the invariant of `StateInv`, from every state that has it (the sentence of R26 that the spec marks as derived). -/
def Obligations.InvariantIsKept : Prop :=
  ∀ s t : State, StateInv s → step s = .next t → StateInv t

/-- The state after reset has the invariant. -/
def Obligations.InvariantHoldsAtReset : Prop :=
  StateInv State.reset

/-- R135: from a state with the invariant no step stops, whatever word is presented and whoever moves. -/
def Obligations.InvariantStatesNeverStop : Prop :=
  ∀ s : State, StateInv s → ∃ t, step s = .next t

/-- R15: the phase of each unit after a step is what the transition table gives, so no other transition exists; and the flags of each phase. -/
def Obligations.PhasesFollowTheTransitionTable : Prop :=
  ∀ (s t : State) (u : UnitId), step s = .next t → t.phase u = nextPhase u s ∧
    (busy (t.ctl u), doneFlag (t.ctl u), flt (t.ctl u)) =
      match nextPhase u s with
      | .idle | .active => (false, false, false)
      | .shift => (true, false, false)
      | .done => (false, true, false)
      | .fault => (false, false, true)

/-- R20, R143: `fcause` is written on entry to FAULT and by reset and by nothing else; what entry writes is 1 or 2, and 3 is never produced. -/
def Obligations.CauseIsWrittenOnlyOnFaultEntryOrReset : Prop :=
  ∀ (s t : State) (u : UnitId), step s = .next t →
    (isReset s.turn = true → (t.ctl u).fcause = 0#2) ∧
    (isReset s.turn = false → s.phase u ≠ .fault → t.phase u = .fault → (t.ctl u).fcause = 1#2 ∨ (t.ctl u).fcause = 2#2) ∧
    (isReset s.turn = false → s.phase u = .fault ∨ t.phase u ≠ .fault → (t.ctl u).fcause = (s.ctl u).fcause)

/-- R18: the bits of the status word, and that at most one of its three flags is 1. -/
def Obligations.StatusWordShowsPhaseAndCause : Prop :=
  ∀ c : Control,
    ((statusWord c).getLsbD 0 = true ↔ c.ph = .shift) ∧ ((statusWord c).getLsbD 1 = true ↔ c.ph = .done) ∧
    ((statusWord c).getLsbD 2 = true ↔ c.ph = .fault) ∧ (statusWord c).extractLsb' 3 2 = c.fcause ∧
    ((statusWord c).extractLsb' 0 3 = 0b000#3 ∨ (statusWord c).extractLsb' 0 3 = 0b001#3 ∨
      (statusWord c).extractLsb' 0 3 = 0b010#3 ∨ (statusWord c).extractLsb' 0 3 = 0b100#3)

/-- R19, R142: `res` is `crc` in DONE and has no defined value elsewhere; a fault entry takes it away; and it is stable in every step that
neither resets nor accepts a command for its unit. That a read elsewhere is REFUSED is the model's reading of "must not read it then", as
93 U6 advises (log 6, DEDUCED). -/
def Obligations.ResultIsShownOnlyInDone : Prop :=
  (∀ s : State,
    (s.u16.ph = .done → readRes16 s = .next s.u16.crc) ∧ (s.u16.ph ≠ .done → readRes16 s = .refused (.resultUndefined .u16)) ∧
    (s.u32.ph = .done → readRes32 s = .next s.u32.crc) ∧ (s.u32.ph ≠ .done → readRes32 s = .refused (.resultUndefined .u32)) ∧
    (∀ c, res16 (raiseFault .u16 c s) = none ∧ res32 (raiseFault .u32 c s) = none)) ∧
  (∀ s t : State, step s = .next t → isReset s.turn = false →
    (∀ v, acceptsFor .u16 s = false → res16 s = some v → res16 t = some v) ∧
    (∀ v, acceptsFor .u32 s = false → res32 s = some v → res32 t = some v))

/-- A unit in SHIFT has exactly one enabled step: its own turn takes one of the steps it has left, and no other turn but a reset touches it
(what R176 says of one step). -/
def Obligations.BusyUnitProgressesOnlyByItself : Prop :=
  ∀ (s t : State), step s = .next t → isReset s.turn = false →
    (s.u16.ph = .shift → (s.turn = .own .u16 → ownStepsLeft .u16 t + 1 = ownStepsLeft .u16 s) ∧
      (s.turn ≠ .own .u16 → t.u16 = s.u16)) ∧
    (s.u32.ph = .shift → (s.turn = .own .u32 → ownStepsLeft .u32 t + 1 = ownStepsLeft .u32 s) ∧
      (s.turn ≠ .own .u32 → t.u32 = s.u32))

/-- R150: a unit that is not in SHIFT keeps all its state in every step that neither resets nor accepts a command for it. -/
def Obligations.QuietUnitKeepsItsState : Prop :=
  ∀ s t : State, step s = .next t → isReset s.turn = false →
    (s.u16.ph ≠ .shift → acceptsFor .u16 s = false → t.u16 = s.u16) ∧
    (s.u32.ph ≠ .shift → acceptsFor .u32 s = false → t.u32 = s.u32)

/-- R22: what the host can read does not depend on `crc`, `wrk` or `cnt` of a unit that is not in DONE, nor on `wrk` or `cnt` in any
phase. -/
def Obligations.IntermediateRegistersAreHidden : Prop :=
  ∀ s t : State, s.port = t.port → s.u16.ph = t.u16.ph → s.u16.fcause = t.u16.fcause → s.u32.ph = t.u32.ph →
    s.u32.fcause = t.u32.fcause → (s.u16.ph = .done → s.u16.crc = t.u16.crc) → (s.u32.ph = .done → s.u32.crc = t.u32.crc) →
    status16 s = status16 t ∧ status32 s = status32 t ∧ readRes16 s = readRes16 t ∧ readRes32 s = readRes32 t ∧
    cmdValid s = cmdValid t ∧ cmd s = cmd t ∧ cmdAccept s = cmdAccept t

/-! ### Arithmetic (40_division_step.md) -/

/-- R60: the division step at both widths, as the rule's equation and bit by bit. -/
def Obligations.DivisionStepBitByBit : Prop :=
  (∀ x : Word16,
    divStep Config.arc x = (if x.getLsbD 0 = true then (x >>> 1) ^^^ 0xA001#16 else x >>> 1) ∧
    (∀ i, i < 15 → (divStep Config.arc x).getLsbD i = (x.getLsbD (i + 1) ^^ (x.getLsbD 0 && (0xA001#16).getLsbD i))) ∧
    (divStep Config.arc x).getLsbD 15 = x.getLsbD 0) ∧
  (∀ x : Word32,
    divStep Config.isoHdlc x = (if x.getLsbD 0 = true then (x >>> 1) ^^^ 0xEDB88320#32 else x >>> 1) ∧
    (∀ i, i < 31 → (divStep Config.isoHdlc x).getLsbD i = (x.getLsbD (i + 1) ^^ (x.getLsbD 0 && (0xEDB88320#32).getLsbD i))) ∧
    (divStep Config.isoHdlc x).getLsbD 31 = x.getLsbD 0)

/-- R61: over natural numbers the step halves the value, rounding down, and XORs in the polynomial if it was odd; no sign bit exists. -/
def Obligations.DivisionStepOnNaturals : Prop :=
  (∀ x : Word16, (divStep Config.arc x).toNat = if x.toNat % 2 = 1 then (x.toNat / 2) ^^^ 0xA001 else x.toNat / 2) ∧
  (∀ x : Word32, (divStep Config.isoHdlc x).toNat = if x.toNat % 2 = 1 then (x.toNat / 2) ^^^ 0xEDB88320 else x.toNat / 2)

/-- Any number of division steps is linear over GF(2), at any width and for any polynomial (the law of R67, which the spec derives). -/
def Obligations.DivisionStepsAreLinear : Prop :=
  ∀ (w : Nat) (v : Config.Variant w) (k : Nat) (x y : BitVec w),
    divSteps v k (x ^^^ y) = divSteps v k x ^^^ divSteps v k y ∧ divSteps v k (0#w) = 0#w

/-- Steps on a value whose low bits are zero only shift, at any width (the law of R68, which the spec derives). -/
def Obligations.DivisionStepsOnZeroLowBitsShift : Prop :=
  ∀ (w : Nat) (v : Config.Variant w) (k : Nat) (x : BitVec w), k ≤ w → (∀ j, j < k → x.getLsbD j = false) →
    divSteps v k x = x >>> k

/-! ### The fold and the functions (43_transaction.md) -/

/-- CRC-16's fold, a side register recombined, equals the direct form (the equality of R81, which the spec derives). -/
def Obligations.Fold16EqualsDirectForm : Prop :=
  ∀ (c : Word16) (b : Byte), fold16 c b = divSteps Config.arc 8 (c ^^^ b.setWidth 16)

/-- One BYTE16 as a whole (R80, which the spec derives): accepted in ACTIVE, it keeps U16 busy for exactly nine turns of its own, and then the
register is the fold of the byte. -/
def Obligations.Byte16FoldsInNineSteps : Prop :=
  ∀ (b : Byte) (s t : State) (rest : List Config.Turn), s.u16.ph = .active → exec (.byte16 b) s = .next t →
    t.sched = List.replicate 9 (.own .u16) ++ rest →
    (∀ k, k < 9 → ∃ r, run k t = .next r ∧ r.u16.ph = .shift) ∧
    (∃ r, run 9 t = .next r ∧ r.u16.ph = .active ∧ r.u16.cnt = 0#4 ∧
      r.u16.crc = (s.u16.crc >>> 8) ^^^ divSteps Config.arc 8 ((s.u16.crc &&& 0x00FF#16) ^^^ b.setWidth 16) ∧
      r.u32 = s.u32 ∧ r.port = s.port ∧ r.sched = rest)

/-- One BYTE32 as a whole (R99, which the spec derives): accepted in ACTIVE, it keeps U32 busy for exactly eight turns of its own. -/
def Obligations.Byte32FoldsInEightSteps : Prop :=
  ∀ (b : Byte) (s t : State) (rest : List Config.Turn), s.u32.ph = .active → exec (.byte32 b) s = .next t →
    t.sched = List.replicate 8 (.own .u32) ++ rest →
    (∀ k, k < 8 → ∃ r, run k t = .next r ∧ r.u32.ph = .shift) ∧
    (∃ r, run 8 t = .next r ∧ r.u32.ph = .active ∧ r.u32.cnt = 0#4 ∧
      r.u32.crc = divSteps Config.isoHdlc 8 (s.u32.crc ^^^ b.setWidth 32) ∧
      r.u16 = s.u16 ∧ r.port = s.port ∧ r.sched = rest)

/-- Both functions are the one generic routine at their constants (R124, which the spec derives). -/
def Obligations.GenericRoutineComputesBoth : Prop :=
  (∀ msg : List Byte, compute16 msg = genericCrc { poly := 0xA001#16, init := 0x0000#16, xorout := 0x0000#16 } msg) ∧
  (∀ msg : List Byte, compute32 msg = genericCrc { poly := 0xEDB88320#32, init := 0xFFFFFFFF#32, xorout := 0xFFFFFFFF#32 } msg)

/-- Incremental consistency (R125, which the spec derives): folding a concatenation is folding its parts one after the other. -/
def Obligations.FoldingIsIncremental : Prop :=
  (∀ (c : Word16) (a b : List Byte), reg16 c (a ++ b) = reg16 (reg16 c a) b) ∧
  (∀ (c : Word32) (a b : List Byte), reg32 c (a ++ b) = reg32 (reg32 c a) b)

/-- R122: the empty message, as a function and as START; FINISH on either unit. -/
def Obligations.EmptyMessagePublishesZero : Prop :=
  compute16 [] = 0x0000#16 ∧ compute32 [] = 0x00000000#32 ∧
  (∀ s : State, s.u16.ph = .idle ∨ s.u16.ph = .done →
    ∃ t r, exec .start16 s = .next t ∧ exec .finish16 t = .next r ∧ res16 r = some 0x0000#16) ∧
  (∀ s : State, s.u32.ph = .idle ∨ s.u32.ph = .done →
    ∃ t r, exec .start32 s = .next t ∧ exec .finish32 t = .next r ∧ res32 r = some 0x00000000#32)

/-- A message of one byte is the inner loop unrolled (R126, which the spec derives). -/
def Obligations.SingleByteIsEightSteps : Prop :=
  (∀ b : Byte, compute16 [b] = divSteps Config.arc 8 (b.setWidth 16)) ∧
  (∀ b : Byte, compute32 [b] = ~~~(divSteps Config.isoHdlc 8 (0xFFFFFFFF#32 ^^^ b.setWidth 32)))

/-- START erases history (R23, which the spec derives): whatever two units hold before it, after START and the first BYTE they are equal. -/
def Obligations.StartErasesHistory : Prop :=
  (∀ (s s' : State) (b : Byte), StateInv s → StateInv s' → s.u16.ph = .idle ∨ s.u16.ph = .done → s'.u16.ph = .idle ∨ s'.u16.ph = .done →
    ∃ t t' r r', exec .start16 s = .next t ∧ exec .start16 s' = .next t' ∧
      exec (.byte16 b) t = .next r ∧ exec (.byte16 b) t' = .next r' ∧ r.u16 = r'.u16) ∧
  (∀ s s' : State, StateInv s → StateInv s' → s.u32.ph = .idle ∨ s.u32.ph = .done → s'.u32.ph = .idle ∨ s'.u32.ph = .done →
    ∃ t t', exec .start32 s = .next t ∧ exec .start32 s' = .next t' ∧ t.u32 = t'.u32)

/-! ### Transactions under every schedule -/

/-- A well-formed transaction on U16 computes `compute16` (R118, which the spec derives), from any state with the invariant in which U16 is IDLE or
DONE, for any message, under any schedule without a reset, and whatever words, reserved ones too, are presented to U32 in between: U16 never
faults, and once its words are accepted it shows the result. -/
def Obligations.TransactionComputesCrc16 : Prop :=
  ∀ (s : State) (msg : List Byte), StateInv s → s.u16.ph = .idle ∨ s.u16.ph = .done →
    wordsFor .u16 s.port = (.start16 :: (msg.map .byte16 ++ [.finish16])).map encode →
    (∀ t ∈ s.sched, isReset t = false) →
    ∀ k, k ≤ s.sched.length → ∃ t, run k s = .next t ∧ badEnd .u16 t = false ∧
      (wordsFor .u16 t.port = [] → goodEnd .u16 t = true ∧ res16 t = some (compute16 msg) ∧ status16 t = 0b00010#5)

/-- The same for U32 and `compute32` (R118, which the spec derives). -/
def Obligations.TransactionComputesCrc32 : Prop :=
  ∀ (s : State) (msg : List Byte), StateInv s → s.u32.ph = .idle ∨ s.u32.ph = .done →
    wordsFor .u32 s.port = (.start32 :: (msg.map .byte32 ++ [.finish32])).map encode →
    (∀ t ∈ s.sched, isReset t = false) →
    ∀ k, k ≤ s.sched.length → ∃ t, run k s = .next t ∧ badEnd .u32 t = false ∧
      (wordsFor .u32 t.port = [] → goodEnd .u32 t = true ∧ res32 t = some (compute32 msg) ∧ status32 t = 0b00010#5)

/-- The invariant of a transaction (the reason for R118, which the spec derives): every step but a reset's keeps it, whatever words the other unit
is presented and whoever moves; while it holds the unit is not in FAULT, and once no word is left for the unit its result is shown. -/
def Obligations.TransactionIsCarriedThrough : Prop :=
  (∀ (msg : List Byte) (s : State), Transaction16 msg s →
    (∀ t, isReset s.turn = false → step s = .next t → Transaction16 msg t) ∧
    s.u16.ph ≠ .fault ∧ (wordsFor .u16 s.port = [] → res16 s = some (compute16 msg))) ∧
  (∀ (msg : List Byte) (s : State), Transaction32 msg s →
    (∀ t, isReset s.turn = false → step s = .next t → Transaction32 msg t) ∧
    s.u32.ph ≠ .fault ∧ (wordsFor .u32 s.port = [] → res32 s = some (compute32 msg)))

/-- The steps of a transaction (the count of R118, which the spec derives): START, then for each byte its command and nine own turns of U16 or eight of
U32, then FINISH, complete it, whatever words stand behind it on the port. -/
def Obligations.TransactionTakesItsSteps : Prop :=
  (∀ (s : State) (msg : List Byte) (ws : List CmdWord) (ts : List Config.Turn), s.u16.ph = .idle ∨ s.u16.ph = .done →
    s.port = (.start16 :: (msg.map .byte16 ++ [.finish16])).map encode ++ ws →
    s.sched = .command :: (msg.flatMap (fun _ => .command :: List.replicate 9 (.own .u16)) ++ .command :: ts) →
    ∃ t, run (msg.length + 2 + 9 * msg.length) s = .next t ∧ t.u16.ph = .done ∧ res16 t = some (compute16 msg) ∧
      t.u32 = s.u32 ∧ t.port = ws ∧ t.sched = ts) ∧
  (∀ (s : State) (msg : List Byte) (ws : List CmdWord) (ts : List Config.Turn), s.u32.ph = .idle ∨ s.u32.ph = .done →
    s.port = (.start32 :: (msg.map .byte32 ++ [.finish32])).map encode ++ ws →
    s.sched = .command :: (msg.flatMap (fun _ => .command :: List.replicate 8 (.own .u32)) ++ .command :: ts) →
    ∃ t, run (msg.length + 2 + 8 * msg.length) s = .next t ∧ t.u32.ph = .done ∧ res32 t = some (compute32 msg) ∧
      t.u16 = s.u16 ∧ t.port = ws ∧ t.sched = ts)

/-- All work is finished (what R176 says of held commands and of transactions). Bounded: if the schedule is made of rounds in each of which the host
and both units have a turn and nobody resets, then after as many rounds as there is work every word has been accepted and no unit is busy.
Unbounded: the same under every endless schedule without a reset that is weakly fair to both units and in which the host moves again and
again, at whatever intervals; with `TransactionComputesCrc16` and `TransactionComputesCrc32` every transaction presented then reaches DONE. -/
def Obligations.FairRoundsFinishAllWork : Prop :=
  (∀ (s : State) (rounds : List (List Config.Turn)), StateInv s →
    (∀ r ∈ rounds, .command ∈ r ∧ .own .u16 ∈ r ∧ .own .u32 ∈ r ∧ ∀ t ∈ r, isReset t = false) →
    s.sched = rounds.flatten → ownStepsLeft .u16 s + ownStepsLeft .u32 s + 10 * s.port.length ≤ rounds.length →
    ∃ t, run s.sched.length s = .next t ∧ t.port = [] ∧ t.u16.ph ≠ .shift ∧ t.u32.ph ≠ .shift) ∧
  (∀ (s : State) (σ : Nat → Config.Turn), StateInv s → (∀ n, isReset (σ n) = false) →
    WeaklyFair .u16 σ s → WeaklyFair .u32 σ s → (∀ n, ∃ m, n ≤ m ∧ σ m = .command) →
    ∃ k t, runUnder σ k s = .next t ∧ t.port = [] ∧ t.u16.ph ≠ .shift ∧ t.u32.ph ≠ .shift)

/-- Progress by fairness of the two units alone (what R176 says). Under every endless schedule that is weakly fair to a unit, whatever the host
and the other unit do, the unit is again and again out of SHIFT; without a reset a word on the port stays there until it can be accepted.
And the model's own runs are fair, whatever the free values are (log 3): from every state with the invariant each unit's turn comes again
and again, and each unit leaves SHIFT. -/
def Obligations.FairnessEndsEveryFold : Prop :=
  (∀ (s : State) (σ : Nat → Config.Turn) (u : UnitId) (n : Nat), StateInv s → WeaklyFair u σ s →
    ∃ m t, n ≤ m ∧ runUnder σ m s = .next t ∧ t.phase u ≠ .shift) ∧
  (∀ (s : State) (σ : Nat → Config.Turn) (w : CmdWord) (rest : List CmdWord), StateInv s → s.port = w :: rest →
    WeaklyFair (unitOf w) σ s → (∀ n, isReset (σ n) = false) →
    ∃ m t, runUnder σ m s = .next t ∧ t.port = w :: rest ∧ cmdAccept t = true) ∧
  (∀ (s : State) (u : UnitId) (n : Nat), StateInv s → ∃ m t, n ≤ m ∧ run m s = .next t ∧ t.turn = .own u) ∧
  (∀ (s : State) (u : UnitId), StateInv s → ∃ m t, run m s = .next t ∧ t.phase u ≠ .shift)

/-! ### The caller's side (R136, R57, R58) -/

/-- R136: the wrapper refuses an absent input or one with an element outside 0 to 255, before any command; otherwise the words of START, of one
BYTE for each element, in order, and of FINISH are what it adds to the host's words. -/
def Obligations.WrapperRefusesNonBytes : Prop :=
  ∀ (u : UnitId) (s : State),
    submit u none s = .refused .invalidInput ∧
    (∀ xs : List Int, (∃ x ∈ xs, x < 0 ∨ 255 < x) → submit u (some xs) s = .refused .invalidInput) ∧
    (∀ xs : List Int, (∀ x ∈ xs, 0 ≤ x ∧ x ≤ 255) → ∃ bytes : List Byte, bytes.map (fun b => (b.toNat : Int)) = xs ∧
      submit u (some xs) s = .next { s with
        port := s.port ++ (instrOf u .start 0#8 :: (bytes.map (instrOf u .byte) ++ [instrOf u .finish 0#8])).map encode })

/-- The text of a command, its operand in decimal, assembles to that command (R57). -/
def Obligations.RenderedCommandAssembles : Prop :=
  ∀ i : Instr, assembleLine (renderInstr i) = some [i]

/-- A pseudo-instruction with a string operand expands to the transaction of its characters' codes, whatever printable characters it holds but
the closing quote (R58). -/
def Obligations.StringPseudoInstructionExpands : Prop :=
  ∀ cs : List Char, (∀ c ∈ cs, 0x20 ≤ c.toNat ∧ c.toNat ≤ 0x7E ∧ c ≠ doubleQuote) →
    assembleLine ("CRC16 ".toList ++ doubleQuote :: (cs ++ [doubleQuote])) =
      some (.start16 :: ((cs.map fun c => .byte16 (BitVec.ofNat 8 c.toNat)) ++ [.finish16])) ∧
    assembleLine ("CRC32 ".toList ++ doubleQuote :: (cs ++ [doubleQuote])) =
      some (.start32 :: ((cs.map fun c => .byte32 (BitVec.ofNat 8 c.toNat)) ++ [.finish32]))
end

