-- ==== Sys2Proof/Laws/State.lean ====
section
/-! SUPPORT. One lemma per field per update of the state, so that no proof unfolds a record update. -/

namespace Sys2Proof.Machine

/-! ### The turn taken off the schedule -/
@[simp] theorem advance_u16 (s : State) : s.advance.u16 = s.u16 := rfl
@[simp] theorem advance_u32 (s : State) : s.advance.u32 = s.u32 := rfl
@[simp] theorem advance_port (s : State) : s.advance.port = s.port := rfl
@[simp] theorem advance_sched (s : State) : s.advance.sched = s.sched.tail := rfl
@[simp] theorem advance_tick (s : State) : s.advance.tick = s.tick + 1 := rfl

@[simp] theorem advance_ctl (s : State) (u : UnitId) : s.advance.ctl u = s.ctl u := by cases u <;> rfl

@[simp] theorem advance_phase (s : State) (u : UnitId) : s.advance.phase u = s.phase u := by cases u <;> rfl

@[simp] theorem turn_cons (s : State) (t : Config.Turn) (ts : List Config.Turn) (h : s.sched = t :: ts) : s.turn = t := by
  simp [State.turn, h]

/-! ### Control registers -/

@[simp] theorem ctl_u16 (s : State) : s.ctl .u16 = s.u16.toControl := rfl

@[simp] theorem ctl_u32 (s : State) : s.ctl .u32 = s.u32.toControl := rfl

@[simp] theorem phase_u16 (s : State) : s.phase .u16 = s.u16.ph := rfl

@[simp] theorem phase_u32 (s : State) : s.phase .u32 = s.u32.ph := rfl

@[simp] theorem setCtl_u16_u16 (s : State) (c : Control) : (s.setCtl .u16 c).u16 = { s.u16 with toControl := c } := rfl
@[simp] theorem setCtl_u16_u32 (s : State) (c : Control) : (s.setCtl .u16 c).u32 = s.u32 := rfl

@[simp] theorem setCtl_u32_u16 (s : State) (c : Control) : (s.setCtl .u32 c).u16 = s.u16 := rfl
@[simp] theorem setCtl_u32_u32 (s : State) (c : Control) : (s.setCtl .u32 c).u32 = { s.u32 with toControl := c } := rfl

@[simp] theorem setCtl_port (s : State) (u : UnitId) (c : Control) : (s.setCtl u c).port = s.port := by cases u <;> rfl
@[simp] theorem setCtl_sched (s : State) (u : UnitId) (c : Control) : (s.setCtl u c).sched = s.sched := by cases u <;> rfl
@[simp] theorem setCtl_tick (s : State) (u : UnitId) (c : Control) : (s.setCtl u c).tick = s.tick := by cases u <;> rfl

@[simp] theorem setCtl_ctl_same (s : State) (u : UnitId) (c : Control) : (s.setCtl u c).ctl u = c := by cases u <;> rfl

theorem setCtl_ctl_other (s : State) (u v : UnitId) (c : Control) (h : v ≠ u) : (s.setCtl u c).ctl v = s.ctl v := by
  cases u <;> cases v <;> first | rfl | exact absurd rfl h

/-! ### A state with the units of `s`: the model's own fields do not matter -/

@[simp] theorem sameUnits_ctl (s : State) (ws : List CmdWord) (ts : List Config.Turn) (n : Nat) (u : UnitId) :
    (State.mk s.u16 s.u32 ws ts n).ctl u = s.ctl u := by
  cases u <;> rfl

@[simp] theorem sameUnits_phase (s : State) (ws : List CmdWord) (ts : List Config.Turn) (n : Nat) (u : UnitId) :
    (State.mk s.u16 s.u32 ws ts n).phase u = s.phase u := by
  cases u <;> rfl

/-! ### Fault entry -/

@[simp] theorem raiseFault_u16_u16 (s : State) (c : Cause) : (raiseFault .u16 c s).u16 = { s.u16 with ph := .fault, fcause := causeCode c } := rfl
@[simp] theorem raiseFault_u16_u32 (s : State) (c : Cause) : (raiseFault .u16 c s).u32 = s.u32 := rfl

@[simp] theorem raiseFault_u32_u16 (s : State) (c : Cause) : (raiseFault .u32 c s).u16 = s.u16 := rfl
@[simp] theorem raiseFault_u32_u32 (s : State) (c : Cause) : (raiseFault .u32 c s).u32 = { s.u32 with ph := .fault, fcause := causeCode c } := rfl

@[simp] theorem raiseFault_port (s : State) (u : UnitId) (c : Cause) : (raiseFault u c s).port = s.port := by cases u <;> rfl
@[simp] theorem raiseFault_sched (s : State) (u : UnitId) (c : Cause) : (raiseFault u c s).sched = s.sched := by cases u <;> rfl
@[simp] theorem raiseFault_tick (s : State) (u : UnitId) (c : Cause) : (raiseFault u c s).tick = s.tick := by cases u <;> rfl

/-! ### Micro-operations of U16 -/

@[simp] theorem init16_u16 (s : State) : (init16 s).u16 = { s.u16 with crc := Config.arc.init, cnt := 0#4, ph := .active } := rfl
@[simp] theorem init16_u32 (s : State) : (init16 s).u32 = s.u32 := rfl
@[simp] theorem init16_port (s : State) : (init16 s).port = s.port := rfl
@[simp] theorem init16_sched (s : State) : (init16 s).sched = s.sched := rfl
@[simp] theorem init16_tick (s : State) : (init16 s).tick = s.tick := rfl

@[simp] theorem load16_u16 (s : State) (b : Byte) : (load16 b s).u16 = { s.u16 with wrk := zext16 (lowByte s.u16.crc ^^^ b), cnt := 8#4, ph := .shift } := rfl
@[simp] theorem load16_u32 (s : State) (b : Byte) : (load16 b s).u32 = s.u32 := rfl
@[simp] theorem load16_port (s : State) (b : Byte) : (load16 b s).port = s.port := rfl
@[simp] theorem load16_sched (s : State) (b : Byte) : (load16 b s).sched = s.sched := rfl
@[simp] theorem load16_tick (s : State) (b : Byte) : (load16 b s).tick = s.tick := rfl

@[simp] theorem final16_u16 (s : State) : (final16 s).u16 = { s.u16 with crc := s.u16.crc ^^^ Config.arc.xorout, ph := .done } := rfl
@[simp] theorem final16_u32 (s : State) : (final16 s).u32 = s.u32 := rfl
@[simp] theorem final16_port (s : State) : (final16 s).port = s.port := rfl
@[simp] theorem final16_sched (s : State) : (final16 s).sched = s.sched := rfl
@[simp] theorem final16_tick (s : State) : (final16 s).tick = s.tick := rfl

@[simp] theorem bitStep16_u16 (s : State) : (bitStep16 s).u16 = { s.u16 with wrk := divStep Config.arc s.u16.wrk, cnt := s.u16.cnt - 1#4 } := rfl
@[simp] theorem bitStep16_u32 (s : State) : (bitStep16 s).u32 = s.u32 := rfl
@[simp] theorem bitStep16_port (s : State) : (bitStep16 s).port = s.port := rfl
@[simp] theorem bitStep16_sched (s : State) : (bitStep16 s).sched = s.sched := rfl
@[simp] theorem bitStep16_tick (s : State) : (bitStep16 s).tick = s.tick := rfl

@[simp] theorem foldStep16_u16 (s : State) : (foldStep16 s).u16 = { s.u16 with crc := highByteDown s.u16.crc ^^^ s.u16.wrk, ph := .active } := rfl
@[simp] theorem foldStep16_u32 (s : State) : (foldStep16 s).u32 = s.u32 := rfl
@[simp] theorem foldStep16_port (s : State) : (foldStep16 s).port = s.port := rfl
@[simp] theorem foldStep16_sched (s : State) : (foldStep16 s).sched = s.sched := rfl
@[simp] theorem foldStep16_tick (s : State) : (foldStep16 s).tick = s.tick := rfl

/-! ### Micro-operations of U32 -/

@[simp] theorem init32_u16 (s : State) : (init32 s).u16 = s.u16 := rfl
@[simp] theorem init32_u32 (s : State) : (init32 s).u32 = { s.u32 with crc := Config.isoHdlc.init, cnt := 0#4, ph := .active } := rfl
@[simp] theorem init32_port (s : State) : (init32 s).port = s.port := rfl
@[simp] theorem init32_sched (s : State) : (init32 s).sched = s.sched := rfl
@[simp] theorem init32_tick (s : State) : (init32 s).tick = s.tick := rfl

@[simp] theorem load32_u16 (s : State) (b : Byte) : (load32 b s).u16 = s.u16 := rfl
@[simp] theorem load32_u32 (s : State) (b : Byte) : (load32 b s).u32 = { s.u32 with crc := s.u32.crc ^^^ zext32 b, cnt := 8#4, ph := .shift } := rfl
@[simp] theorem load32_port (s : State) (b : Byte) : (load32 b s).port = s.port := rfl
@[simp] theorem load32_sched (s : State) (b : Byte) : (load32 b s).sched = s.sched := rfl
@[simp] theorem load32_tick (s : State) (b : Byte) : (load32 b s).tick = s.tick := rfl

@[simp] theorem final32_u16 (s : State) : (final32 s).u16 = s.u16 := rfl
@[simp] theorem final32_u32 (s : State) : (final32 s).u32 = { s.u32 with crc := ~~~s.u32.crc, ph := .done } := rfl
@[simp] theorem final32_port (s : State) : (final32 s).port = s.port := rfl
@[simp] theorem final32_sched (s : State) : (final32 s).sched = s.sched := rfl
@[simp] theorem final32_tick (s : State) : (final32 s).tick = s.tick := rfl

@[simp] theorem bitStep32_u16 (s : State) : (bitStep32 s).u16 = s.u16 := rfl
@[simp] theorem bitStep32_port (s : State) : (bitStep32 s).port = s.port := rfl
@[simp] theorem bitStep32_sched (s : State) : (bitStep32 s).sched = s.sched := rfl
@[simp] theorem bitStep32_tick (s : State) : (bitStep32 s).tick = s.tick := rfl

@[simp] theorem bitStep32_u32 (s : State) : (bitStep32 s).u32 = { s.u32 with
    crc := divStep Config.isoHdlc s.u32.crc, cnt := s.u32.cnt - 1#4
    ph := if s.u32.cnt = 1#4 then .active else s.u32.ph } := rfl

/-! ### Reset -/

@[simp] theorem resetStep_port (s : State) (n : Nat) : (resetStep n s).port = s.port.drop n := rfl
@[simp] theorem resetStep_sched (s : State) (n : Nat) : (resetStep n s).sched = s.sched := rfl
@[simp] theorem resetStep_tick (s : State) (n : Nat) : (resetStep n s).tick = s.tick := rfl

@[simp] theorem resetStep_u16 (s : State) (n : Nat) : (resetStep n s).u16 =
    { crc := Config.resetCrc16 s.tick s.u16.crc, wrk := Config.resetWrk16 s.tick s.u16.wrk, cnt := Config.resetCnt16 s.tick s.u16.cnt, ph := .idle,
      fcause := 0#2 } := rfl

@[simp] theorem resetStep_u32 (s : State) (n : Nat) : (resetStep n s).u32 =
    { crc := Config.resetCrc32 s.tick s.u32.crc, cnt := Config.resetCnt32 s.tick s.u32.cnt, ph := .idle, fcause := 0#2 } := rfl

end Sys2Proof.Machine
end

