-- ==== Sys2Proof/Laws/Ops.lean ====
section
/-! SUPPORT. One spec lemma per shared operation: everything it can do, said once, so that later proofs cite it and do not unfold it. -/

namespace Sys2Proof.Machine

/-! ### Acceptance (R140) -/

/-- A word presented to a unit in SHIFT or FAULT changes nothing. -/
theorem acceptAt_idles {u : UnitId} {judge : Phase → State → State} {s : State}
    (h : s.phase u = .shift ∨ s.phase u = .fault) : acceptAt u judge s = .next s := by
  rcases h with h | h <;> simp [acceptAt, h]

/-- In every other phase it is judged, by that phase. -/
theorem acceptAt_judges {u : UnitId} {judge : Phase → State → State} {s : State}
    (h1 : s.phase u ≠ .shift) (h2 : s.phase u ≠ .fault) : acceptAt u judge s = .next (judge (s.phase u) s) := by
  unfold acceptAt
  split <;> simp_all

/-- Acceptance always answers a next state: unchanged, or judged. -/
theorem acceptAt_cases (u : UnitId) (judge : Phase → State → State) (s : State) :
    ((s.phase u = .shift ∨ s.phase u = .fault) ∧ acceptAt u judge s = .next s) ∨
    (s.phase u ≠ .shift ∧ s.phase u ≠ .fault ∧ acceptAt u judge s = .next (judge (s.phase u) s)) := by
  by_cases h : s.phase u = .shift ∨ s.phase u = .fault
  · exact .inl ⟨h, acceptAt_idles h⟩
  · rw [not_or] at h
    exact .inr ⟨h.1, h.2, acceptAt_judges h.1 h.2⟩

/-- A legal command is held or discarded, has its effect, or is a ProtocolError. -/
theorem acceptCommand_cases (u : UnitId) (allowed : Phase → Bool) (effect : State → State) (s : State) :
    ((s.phase u = .shift ∨ s.phase u = .fault) ∧ acceptCommand u allowed effect s = .next s) ∨
    (s.phase u ≠ .shift ∧ s.phase u ≠ .fault ∧ allowed (s.phase u) = true ∧
      acceptCommand u allowed effect s = .next (effect s)) ∨
    (s.phase u ≠ .shift ∧ s.phase u ≠ .fault ∧ allowed (s.phase u) = false ∧
      acceptCommand u allowed effect s = .next (raiseFault u .protocolError s)) := by
  rcases acceptAt_cases u (fun p t => if allowed p then effect t else raiseFault u .protocolError t) s with h | ⟨h1, h2, h⟩
  · exact .inl h
  · cases ha : allowed (s.phase u)
    · exact .inr (.inr ⟨h1, h2, rfl, by simpa [acceptCommand, ha] using h⟩)
    · exact .inr (.inl ⟨h1, h2, rfl, by simpa [acceptCommand, ha] using h⟩)

/-- A reserved word is held or discarded, or is an IllegalCommand. -/
theorem acceptReserved_cases (u : UnitId) (s : State) :
    ((s.phase u = .shift ∨ s.phase u = .fault) ∧ acceptReserved u s = .next s) ∨
    (s.phase u ≠ .shift ∧ s.phase u ≠ .fault ∧ acceptReserved u s = .next (raiseFault u .illegalCommand s)) :=
  acceptAt_cases u _ s

/-! ### Instructions -/

/-- The phases that allow a command; with its micro-operation, all in which the six commands differ. -/
def allowedFor : Instr → Phase → Bool
  | .start16 | .start32 => allowsStart
  | .byte16 _ | .finish16 | .byte32 _ | .finish32 => allowsByteOrFinish

/-- Every command is an acceptance at its own unit. -/
theorem exec_eq_accept (i : Instr) (s : State) : exec i s = acceptCommand i.unit (allowedFor i) (microOp i) s := by
  cases i <;> rfl

/-- The inversion of `exec`: held or discarded, the micro-operation, or a ProtocolError. -/
theorem exec_cases (i : Instr) (s : State) :
    ((s.phase i.unit = .shift ∨ s.phase i.unit = .fault) ∧ exec i s = .next s) ∨
    (s.phase i.unit ≠ .shift ∧ s.phase i.unit ≠ .fault ∧ allowedFor i (s.phase i.unit) = true ∧
      exec i s = .next (microOp i s)) ∨
    (s.phase i.unit ≠ .shift ∧ s.phase i.unit ≠ .fault ∧ allowedFor i (s.phase i.unit) = false ∧
      exec i s = .next (raiseFault i.unit .protocolError s)) := by
  rw [exec_eq_accept]
  exact acceptCommand_cases _ _ _ s

/-! ### Decoding -/

/-- A decoded instruction addresses the unit of the word's bit 10. -/
theorem decode_legal_unit {w : CmdWord} {i : Instr} (h : decode w = .legal i) : i.unit = unitOf w := by
  unfold decode at h
  split at h
  · split at h
    · cases h; cases unitOf w <;> rfl
    · cases h
  · split at h
    · cases h; cases unitOf w <;> rfl
    · split at h
      · split at h
        · cases h; cases unitOf w <;> rfl
        · cases h
      · cases h

/-- A reserved word addresses the unit of its bit 10. -/
theorem decode_reserved_unit {w : CmdWord} {u : UnitId} {k : ReservedKind} (h : decode w = .reserved u k) : u = unitOf w := by
  unfold decode at h
  split at h
  · split at h
    · cases h
    · cases h; rfl
  · split at h
    · cases h
    · split at h
      · split at h
        · cases h
        · cases h; rfl
      · cases h; rfl

/-! ### Turns -/

/-- R56: a presented word is accepted iff its unit is not in SHIFT. -/
theorem cmdAccept_cons {s : State} {w : CmdWord} {rest : List CmdWord} (h : s.port = w :: rest) :
    cmdAccept s = true ↔ s.phase (unitOf w) ≠ .shift := by
  simp only [cmdAccept, cmd, h, List.head?_cons, busy, State.phase]
  cases (s.ctl (unitOf w)).ph <;> decide

/-- U16's own turn: nothing, one division step, or the fold. -/
theorem ownStep16_cases (s : State) :
    (s.u16.ph ≠ .shift ∧ ownStep16 s = .next s) ∨
    (s.u16.ph = .shift ∧ s.u16.cnt = 0#4 ∧ ownStep16 s = .next (foldStep16 s)) ∨
    (s.u16.ph = .shift ∧ s.u16.cnt ≠ 0#4 ∧ ownStep16 s = .next (bitStep16 s)) := by
  unfold ownStep16
  split
  · split <;> simp_all
  · simp_all

/-- U32's own turn: nothing, one division step, or the model's fault. -/
theorem ownStep32_cases (s : State) :
    (s.u32.ph ≠ .shift ∧ ownStep32 s = .next s) ∨
    (s.u32.ph = .shift ∧ s.u32.cnt = 0#4 ∧ ownStep32 s = .fault .cntUnderflow32) ∨
    (s.u32.ph = .shift ∧ s.u32.cnt ≠ 0#4 ∧ ownStep32 s = .next (bitStep32 s)) := by
  unfold ownStep32
  split
  · split <;> simp_all
  · simp_all

/-- The host's turn: no word, a word held, a legal command, or a reserved word. -/
theorem commandTurn_cases (s : State) :
    (s.port = [] ∧ commandTurn s = .next s) ∨
    (∃ w rest, s.port = w :: rest ∧ s.phase (unitOf w) = .shift ∧ commandTurn s = .next s) ∨
    (∃ w rest i, s.port = w :: rest ∧ s.phase (unitOf w) ≠ .shift ∧ decode w = .legal i ∧
      commandTurn s = exec i { s with port := rest }) ∨
    (∃ w rest k, s.port = w :: rest ∧ s.phase (unitOf w) ≠ .shift ∧ decode w = .reserved (unitOf w) k ∧
      commandTurn s = acceptReserved (unitOf w) { s with port := rest }) := by
  cases hp : s.port with
  | nil => exact .inl ⟨rfl, by simp [commandTurn, hp]⟩
  | cons w rest =>
    right
    by_cases hs : s.phase (unitOf w) = .shift
    · have hn : cmdAccept s = false := by
        by_contra hc
        exact (cmdAccept_cons hp).1 (by simpa using hc) hs
      exact .inl ⟨w, rest, rfl, hs, by simp [commandTurn, hp, hn]⟩
    · have ha := (cmdAccept_cons hp).2 hs
      right
      cases hd : decode w with
      | legal i => exact .inl ⟨w, rest, i, rfl, hs, hd, by simp [commandTurn, hp, ha, hd, perform]⟩
      | reserved u k =>
        have hu := decode_reserved_unit hd
        subst hu
        exact .inr ⟨w, rest, k, rfl, hs, hd, by simp [commandTurn, hp, ha, hd, perform]⟩

/-- A step is the turn's, on the state with that turn taken off. -/
theorem step_of_turn {s : State} {t : Config.Turn} (h : s.turn = t) : step s = takeTurn t s.advance := by
  rw [step, h]

/-- The inversion of `step`: if it answers `t`, one of these happened, and nothing else. -/
theorem step_cases {s t : State} (h : step s = .next t) :
    (∃ n, s.turn = .reset n ∧ t = resetStep n s.advance) ∨
    (s.turn = .own .u16 ∧ s.u16.ph ≠ .shift ∧ t = s.advance) ∨
    (s.turn = .own .u16 ∧ s.u16.ph = .shift ∧ s.u16.cnt = 0#4 ∧ t = foldStep16 s.advance) ∨
    (s.turn = .own .u16 ∧ s.u16.ph = .shift ∧ s.u16.cnt ≠ 0#4 ∧ t = bitStep16 s.advance) ∨
    (s.turn = .own .u32 ∧ s.u32.ph ≠ .shift ∧ t = s.advance) ∨
    (s.turn = .own .u32 ∧ s.u32.ph = .shift ∧ s.u32.cnt ≠ 0#4 ∧ t = bitStep32 s.advance) ∨
    (s.turn = .command ∧ s.port = [] ∧ t = s.advance) ∨
    (s.turn = .command ∧ ∃ w rest, s.port = w :: rest ∧ s.phase (unitOf w) = .shift ∧ t = s.advance) ∨
    (s.turn = .command ∧ ∃ w rest i, s.port = w :: rest ∧ s.phase (unitOf w) ≠ .shift ∧ decode w = .legal i ∧
      exec i { s.advance with port := rest } = .next t) ∨
    (s.turn = .command ∧ ∃ w rest k, s.port = w :: rest ∧ s.phase (unitOf w) ≠ .shift ∧
      decode w = .reserved (unitOf w) k ∧ acceptReserved (unitOf w) { s.advance with port := rest } = .next t) := by
  cases ht : s.turn with
  | reset n =>
    rw [step_of_turn ht] at h
    cases h
    exact .inl ⟨n, rfl, rfl⟩
  | own u =>
    rw [step_of_turn ht] at h
    cases u with
    | u16 =>
      simp only [takeTurn, ownStep] at h
      rcases ownStep16_cases s.advance with ⟨h1, h2⟩ | ⟨h1, h2, h3⟩ | ⟨h1, h2, h3⟩
      · rw [h2] at h
        cases h
        exact .inr (.inl ⟨rfl, h1, rfl⟩)
      · rw [h3] at h
        cases h
        exact .inr (.inr (.inl ⟨rfl, h1, h2, rfl⟩))
      · rw [h3] at h
        cases h
        exact .inr (.inr (.inr (.inl ⟨rfl, h1, h2, rfl⟩)))
    | u32 =>
      simp only [takeTurn, ownStep] at h
      rcases ownStep32_cases s.advance with ⟨h1, h2⟩ | ⟨h1, h2, h3⟩ | ⟨h1, h2, h3⟩
      · rw [h2] at h
        cases h
        exact .inr (.inr (.inr (.inr (.inl ⟨rfl, h1, rfl⟩))))
      · rw [h3] at h
        cases h
      · rw [h3] at h
        cases h
        exact .inr (.inr (.inr (.inr (.inr (.inl ⟨rfl, h1, h2, rfl⟩)))))
  | command =>
    rw [step_of_turn ht] at h
    simp only [takeTurn] at h
    rcases commandTurn_cases s.advance with ⟨h1, h2⟩ | ⟨w, r, h1, h2, h3⟩ | ⟨w, r, i, h1, h2, h3, h4⟩ | ⟨w, r, k, h1, h2, h3, h4⟩
    · rw [h2] at h
      cases h
      simp_all
    · rw [h3] at h
      cases h
      simp_all
    · rw [h4] at h
      simp_all
    · rw [h4] at h
      simp_all

end Sys2Proof.Machine
end

