-- ==== Sys2Proof/Laws/Run.lean ====
section
/-! SUPPORT. Runs of steps and iterations of the division step: how they compose. -/

namespace Sys2Proof.Machine

/-- A run of one more step goes on from the next state. -/
theorem run_succ {n : Nat} {s t : State} (h : step s = .next t) : run (n + 1) s = run n t := by
  simp [run, h]

/-- Runs compose. -/
theorem run_add {m : Nat} (n : Nat) {s t : State} (h : run m s = .next t) : run (m + n) s = run n t := by
  induction m generalizing s with
  | zero =>
    cases h
    rw [Nat.zero_add]
  | succ m ih =>
    cases e : step s with
    | next x =>
      rw [run_succ e] at h
      rw [Nat.add_right_comm, run_succ e]
      exact ih h
    | fault r => simp [run, e] at h
    | refused r => simp [run, e] at h

/-- The last of `k + 1` division steps taken apart from the first `k`. -/
theorem divSteps_succ_right {w : Nat} (v : Config.Variant w) (k : Nat) (x : BitVec w) :
    divSteps v (k + 1) x = divStep v (divSteps v k x) := by
  induction k generalizing x with
  | zero => rfl
  | succ k ih =>
    rw [divSteps, ih]
    rfl

/-- R64: a counter that is not 0 counts down without a borrow. -/
theorem cnt_pred {c : BitVec 4} (h : c ≠ 0#4) : (c - 1#4).toNat + 1 = c.toNat := by
  revert c
  decide

/-- The word of an instruction addresses that instruction's unit (R45). -/
theorem unitOf_encode (i : Instr) : unitOf (encode i) = i.unit := by
  cases i with
  | byte16 b => revert b; decide +kernel
  | byte32 b => revert b; decide +kernel
  | _ => decide

/-- The words for a unit, one word at a time. -/
theorem wordsFor_cons (u : UnitId) (w : CmdWord) (ws : List CmdWord) :
    wordsFor u (w :: ws) = if unitOf w = u then w :: wordsFor u ws else wordsFor u ws := by
  by_cases h : unitOf w = u <;> simp [wordsFor, h]

end Sys2Proof.Machine
end

