-- ==== Sys2Proof/Laws/Fairness.lean ====
section
/-! SUPPORT. The free schedule is fair (R176), and what a step does with the model's own fields, so that runs can be followed. -/

namespace Sys2Proof.Machine

/-- A step takes one turn off the schedule and advances the counter, whatever it does to the units. -/
theorem step_ownFields {s t : State} (h : step s = .next t) : t.sched = s.sched.tail ∧ t.tick = s.tick + 1 := by
  have accepted : ∀ {u : UnitId} {judge : Phase → State → State} {x : State},
      (∀ p y, (judge p y).sched = y.sched ∧ (judge p y).tick = y.tick) → acceptAt u judge x = .next t →
      t.sched = x.sched ∧ t.tick = x.tick := by
    intro u judge x hj hx
    rcases acceptAt_cases u judge x with ⟨_, e⟩ | ⟨_, _, e⟩ <;> rw [e] at hx <;> cases hx
    · exact ⟨rfl, rfl⟩
    · exact hj _ _
  rcases step_cases h with ⟨n, _, rfl⟩ | ⟨_, _, rfl⟩ | ⟨_, _, _, rfl⟩ | ⟨_, _, _, rfl⟩ | ⟨_, _, rfl⟩ | ⟨_, _, _, rfl⟩ |
    ⟨_, _, rfl⟩ | ⟨_, _, _, _, _, rfl⟩ | ⟨_, w, rest, i, _, _, _, e⟩ | ⟨_, w, rest, k, _, _, _, e⟩
  case inr.inr.inr.inr.inr.inr.inr.inr.inl =>
    rw [exec_eq_accept] at e
    refine accepted (fun p y => ?_) e
    split
    · cases i <;> exact ⟨rfl, rfl⟩
    · simp [raiseFault]
  case inr.inr.inr.inr.inr.inr.inr.inr.inr =>
    exact accepted (fun p y => by simp [raiseFault]) e
  all_goals simp

/-- Past the end of the schedule the turn is the fair free schedule's. -/
theorem turn_nil {s : State} (h : s.sched = []) : s.turn = fairTurn s.tick := by
  simp [State.turn, h]

/-- The free turns before a due turn run down to it. -/
theorem dueIn_runs_down {u : UnitId} (k n : Nat) (h : dueIn n = (k, u)) : dueIn (n + k) = (0, u) := by
  induction k generalizing n with
  | zero => exact h
  | succ k ih =>
    rw [show n + (k + 1) = (n + 1) + k by omega]
    exact ih (n + 1) (by simp [dueIn, h])

/-- From every counter on, some unit's turn is due. -/
theorem some_turn_is_due (n : Nat) : ∃ m u, n ≤ m ∧ dueIn m = (0, u) :=
  ⟨n + (dueIn n).1, (dueIn n).2, Nat.le_add_right _ _, dueIn_runs_down _ n rfl⟩

/-- R176: whatever the free values are, the turn of each unit comes again and again. -/
theorem fairTurn_recurs (u : UnitId) (n : Nat) : ∃ m, n ≤ m ∧ fairTurn m = .own u := by
  obtain ⟨m, v, hm, hv⟩ := some_turn_is_due n
  by_cases huv : v = u
  · exact ⟨m, hm, by simp [fairTurn, hv, huv]⟩
  · have hnext : dueIn (m + 1) = (Config.gap (m + 1), u) := by
      have : otherUnit v = u := by cases u <;> cases v <;> first | rfl | exact absurd rfl huv
      simp [dueIn, hv, this]
    exact ⟨m + 1 + Config.gap (m + 1), by omega, by simp [fairTurn, dueIn_runs_down _ _ hnext]⟩

end Sys2Proof.Machine
end

