-- ==== Sys2Proof/Laws/PerInstr.lean ====
section
/-! SUPPORT. Statements for all instructions, one lemma per constructor. -/

namespace Sys2Proof.Laws.EncodedFields

/-- The word of an instruction carries its unit, its operation and its byte in the fields of R45, is selected by its own row of R49
and by no other, and lies in no reserved range of R51. -/
def Statement (i : Instr) : Prop :=
  unitOf (encode i) = i.unit ∧ opField (encode i) = opCode i.op ∧ dataField (encode i) = i.data ∧
  (commandTable.filter fun r => rowSelects r (encode i)).map PatternRow.mnemonic = [i.mnemonic] ∧
  isReservedWord (encode i) = false

theorem start16 : Statement .start16 := by unfold Statement; decide

theorem byte16 (b : Byte) : Statement (.byte16 b) := by unfold Statement; revert b; decide +kernel

theorem finish16 : Statement .finish16 := by unfold Statement; decide

theorem start32 : Statement .start32 := by unfold Statement; decide

theorem byte32 (b : Byte) : Statement (.byte32 b) := by unfold Statement; revert b; decide +kernel

theorem finish32 : Statement .finish32 := by unfold Statement; decide

end Sys2Proof.Laws.EncodedFields
end

