-- ==== Sys2Proof/Tests/Slice0.lean ====
section
/-! SUPPORT. The model's own tests, with expected values from the spec's vectors (95_test_vectors.md) and rules, and a witness for every
obligation that has hypotheses. -/

namespace Sys2Proof.Machine.Test

/-! ### Small states -/

/-- The next state of an outcome, in a form that can be compared. -/
def after (o : Host.Outcome State Fault Refusal) : Option State :=
  match o with
  | .next t => some t
  | .fault _ | .refused _ => none

/-- U16 in a phase, as a run can leave it: ACTIVE after the first byte of S1, SHIFT after LOAD16 of 0xA3 (R82), DONE with the result of
S2, FAULT after a ProtocolError. -/
def unit16 : Phase → Unit16
  | .idle => { crc := 0x0000#16, wrk := 0x0000#16, cnt := 0#4, ph := .idle, fcause := 0#2 }
  | .active => { crc := 0x7940#16, wrk := 0x7940#16, cnt := 0#4, ph := .active, fcause := 0#2 }
  | .shift => { crc := 0x0000#16, wrk := 0x00A3#16, cnt := 8#4, ph := .shift, fcause := 0#2 }
  | .done => { crc := 0xBB3D#16, wrk := 0xBB00#16, cnt := 0#4, ph := .done, fcause := 0#2 }
  | .fault => { crc := 0x7940#16, wrk := 0x7940#16, cnt := 0#4, ph := .fault, fcause := 2#2 }

/-- U32 in a phase: SHIFT after LOAD32 of 0x31 (R100), ACTIVE and DONE as in P2. -/
def unit32 : Phase → Unit32
  | .idle => { crc := 0x00000000#32, cnt := 0#4, ph := .idle, fcause := 0#2 }
  | .active => { crc := 0x77B79C2D#32, cnt := 0#4, ph := .active, fcause := 0#2 }
  | .shift => { crc := 0xFFFFFFCE#32, cnt := 8#4, ph := .shift, fcause := 0#2 }
  | .done => { crc := 0x884863D2#32, cnt := 0#4, ph := .done, fcause := 0#2 }
  | .fault => { crc := 0x7C231048#32, cnt := 0#4, ph := .fault, fcause := 1#2 }

/-- Both units in a phase, with words to present and a schedule. -/
def st (p q : Phase) (port : List CmdWord) (sched : List Config.Turn) : State :=
  { u16 := unit16 p, u32 := unit32 q, port := port, sched := sched, tick := 0 }

/-- The fold of U16 with its ninth step due (R82: `wrk` = 0x7940 and `cnt` = 0), from the register 0x7940 of V2's second byte. -/
def foldDue : State :=
  { st .shift .idle [] [.own .u16] with
    u16 := { crc := 0x7940#16, wrk := 0x0E40#16, cnt := 0#4, ph := .shift, fcause := 0#2 } }

/-- The fold of U32 with its eighth step due (R100: `cnt` = 1). -/
def lastStepDue : State :=
  { st .idle .shift [] [.own .u32] with u32 := { crc := 0xF8462090#32, cnt := 1#4, ph := .shift, fcause := 0#2 } }

/-- The five phases. -/
def phases : List Phase := [.idle, .active, .shift, .done, .fault]

/-! ### Well-formedness -/

/-- R136: an absent input is refused. -/
theorem test_wf_absent_input : messageWellFormed none = false := by decide

/-- R136: an element above 255 is refused. -/
theorem test_wf_element_256 : messageWellFormed (some [0, 255, 256]) = false := by decide

/-- R136: a negative element is refused. -/
theorem test_wf_element_minus1 : messageWellFormed (some [-1]) = false := by decide

/-- R136, R31: bytes and the empty message are well formed. -/
theorem test_wf_bytes : messageWellFormed (some [0, 255]) = true ∧ messageWellFormed (some []) = true := by decide

/-- R51: the two ends of each reserved range, and the legal words next to them. -/
theorem test_wf_reserved_ends :
    ([0x000#11, 0x0FF#11, 0x400#11, 0x4FF#11, 0x101#11, 0x1FF#11, 0x501#11, 0x5FF#11, 0x301#11, 0x3FF#11, 0x701#11, 0x7FF#11].all
      isReservedWord) = true ∧
    ([0x100#11, 0x200#11, 0x2FF#11, 0x300#11, 0x500#11, 0x600#11, 0x6FF#11, 0x700#11].any isReservedWord) = false := by
  decide

/-- R58: only 0x20 to 0x7E may appear in a string operand. -/
theorem test_wf_text : textWellFormed [Char.ofNat 0x7F] = false ∧ textWellFormed [Char.ofNat 0x1F] = false ∧
    textWellFormed [Char.ofNat 0x20, Char.ofNat 0x7E] = true := by
  decide

/-- R48: no instruction is ill formed, for its operand is eight bits wide. -/
theorem test_wf_every_instruction (i : Instr) : i.wellFormed = true := by
  cases i with
  | byte16 b => simpa [Instr.wellFormed] using Nat.le_of_lt_succ b.isLt
  | byte32 b => simpa [Instr.wellFormed] using Nat.le_of_lt_succ b.isLt
  | _ => rfl

/-! ### Decoding: the words of V30, written out bit by bit (R45, R49) -/

theorem test_decode_start16 : decode 0b00100000000#11 = .legal .start16 := by decide

theorem test_decode_byte16 : decode 0b01010100011#11 = .legal (.byte16 0xA3#8) := by decide

theorem test_decode_finish16 : decode 0b01100000000#11 = .legal .finish16 := by decide

theorem test_decode_start32 : decode 0b10100000000#11 = .legal .start32 := by decide

theorem test_decode_byte32 : decode 0b11000110001#11 = .legal (.byte32 0x31#8) := by decide

theorem test_decode_finish32 : decode 0b11100000000#11 = .legal .finish32 := by decide

/-- V30, the reserved rows, each refused by its reason and for its unit. -/
theorem test_decode_reserved :
    decode 0b00000000000#11 = .reserved .u16 .opZero ∧ decode 0b10011111111#11 = .reserved .u32 .opZero ∧
    decode 0b00100000001#11 = .reserved .u16 .startWithData ∧ decode 0b10110100011#11 = .reserved .u32 .startWithData ∧
    decode 0b01100000001#11 = .reserved .u16 .finishWithData ∧ decode 0b11111111111#11 = .reserved .u32 .finishWithData := by
  decide

/-- A table number that needs a twelfth bit is no word; one within 16 bits is. -/
theorem test_table_word : decodeTableWord 16 0x8100 = none ∧ decodeTableWord 16 0x2FF = some (.byte16 0xFF#8) ∧
    decodeTableWord 11 0x101 = none := by
  decide

/-! ### One step: the cells of V31 and the first rows of R82 and R100 -/

/-- V31, row DONE and 0x100: the old result is gone. -/
theorem test_start16_from_done : (after (exec .start16 (st .done .idle [] []))).map (fun t => (t.u16.ph, t.u16.crc, status16 t, res16 t)) =
    some (.active, 0x0000#16, 0b00000#5, none) := by
  decide

/-- V31, row ACTIVE and 0x100: a ProtocolError, not a second initialisation. -/
theorem test_start16_in_active : (after (exec .start16 (st .active .idle [] []))).map (fun t => (t.u16.crc, status16 t)) =
    some (0x7940#16, 0b10100#5) := by
  decide

/-- V2, second byte: `wrk` is loaded from the low byte of `crc`, which is kept. -/
theorem test_byte16_loads : (after (exec (.byte16 0x57#8) (st .active .idle [] []))).map (fun t => (t.u16.wrk, t.u16.crc, t.u16.cnt, status16 t)) =
    some (0x0017#16, 0x7940#16, 8#4, 0b00001#5) := by
  decide

/-- V31, row IDLE and 0x231. -/
theorem test_byte16_in_idle : (after (exec (.byte16 0x31#8) (st .idle .idle [] []))).map (fun t => (t.u16, status16 t)) =
    some ({ unit16 .idle with ph := .fault, fcause := 2#2 }, 0b10100#5) := by
  decide

/-- P6's accepted neighbour: 0x300 after one byte publishes 0x7940. -/
theorem test_finish16_publishes : (after (exec .finish16 (st .active .idle [] []))).map (fun t => (res16 t, status16 t)) =
    some (some 0x7940#16, 0b00010#5) := by
  decide

/-- V31, row DONE and 0x300: no second publication, and the result is gone. -/
theorem test_finish16_in_done : (after (exec .finish16 (st .done .idle [] []))).map (fun t => (t.u16.crc, res16 t, status16 t)) =
    some (0xBB3D#16, none, 0b10100#5) := by
  decide

/-- R95's example. -/
theorem test_start32_from_idle : (after (exec .start32 (st .idle .idle [] []))).map (fun t => (t.u32.crc, t.u32.ph, status32 t)) =
    some (0xFFFFFFFF#32, .active, 0b00000#5) := by
  decide

/-- R141: a faulted unit discards START32. -/
theorem test_start32_in_fault : after (exec .start32 (st .idle .fault [] [])) = some (st .idle .fault [] []) := by
  decide

/-- P2: BYTE32 '3' leaves bits 31:8 of the register as they are (V22: 0xB0ACBB32 and 0x33 give 0xB0ACBB01). -/
theorem test_byte32_loads :
    (after (exec (.byte32 0x33#8) { st .idle .active [] [] with u32 := { unit32 .active with crc := 0xB0ACBB32#32 } })).map
      (fun t => (t.u32.crc, t.u32.cnt, status32 t)) = some (0xB0ACBB01#32, 8#4, 0b00001#5) := by
  decide

/-- R139: BYTE32 in DONE. -/
theorem test_byte32_in_done : (after (exec (.byte32 0x31#8) (st .idle .done [] []))).map (fun t => (t.u32.crc, t.u32.cnt, status32 t)) =
    some (0x884863D2#32, 0#4, 0b10100#5) := by
  decide

/-- R97's example, S6. -/
theorem test_finish32_inverts : (after (exec .finish32 (st .idle .active [] []))).map (fun t => (res32 t, status32 t)) =
    some (some 0x884863D2#32, 0b00010#5) := by
  decide

/-- R97: the inversion is applied once. -/
theorem test_finish32_in_done : (after (exec .finish32 (st .idle .done [] []))).map (fun t => (t.u32.crc, res32 t)) =
    some (0x884863D2#32, none) := by
  decide

/-- R82, first division step of 0xA3. -/
theorem test_bitstep16 : (after (step (st .shift .idle [] [.own .u16]))).map (fun t => (t.u16.wrk, t.u16.cnt, t.u16.ph)) =
    some (0xA050#16, 7#4, .shift) := by
  decide

/-- R79's second operand pair in V2: 0x0079 ^ 0x0E40. -/
theorem test_fold16 : (after (step foldDue)).map (fun t => (t.u16.crc, t.u16.wrk, t.u16.ph)) = some (0x0E39#16, 0x0E40#16, .active) := by
  decide

/-- R100, first division step of 0x31: the shift is logical. -/
theorem test_bitstep32 : (after (step (st .idle .shift [] [.own .u32]))).map (fun t => (t.u32.crc, t.u32.cnt, t.u32.ph)) =
    some (0x7FFFFFE7#32, 7#4, .shift) := by
  decide

/-- R100, the eighth step, which ends the fold. -/
theorem test_bitstep32_last : (after (step lastStepDue)).map (fun t => (t.u32.crc, t.u32.cnt, t.u32.ph)) =
    some (0x7C231048#32, 0#4, .active) := by
  decide

/-- R56: a word for a busy unit is held, with the word behind it. -/
theorem test_held_word : (after (step (st .shift .idle [0x300#11, 0x500#11] [.command]))).map (fun t => (t.port, t.u16, t.u32.ph)) =
    some ([0x300#11, 0x500#11], unit16 .shift, .idle) := by
  decide

/-- P6: the reserved word 0x301 in mid-transaction. -/
theorem test_reserved_word : (after (step (st .active .idle [0x301#11] [.command]))).map (fun t => (t.port, t.u16.crc, status16 t)) =
    some ([], 0x7940#16, 0b01100#5) := by
  decide

/-- R160: reset out of FAULT and DONE; both status words are 0 and no result is shown. -/
theorem test_reset_turn : (after (step (st .fault .done [0x100#11] [.reset 0]))).map
    (fun t => (status16 t, status32 t, res16 t, res32 t, t.port)) = some (0b00000#5, 0b00000#5, none, none, [0x100#11]) := by
  rfl

/-- R19: a read of the result in ACTIVE is refused. -/
theorem test_res_outside_done : readRes16 (st .active .idle [] []) = .refused (.resultUndefined .u16) := by rfl

/-! ### Arithmetic and messages: V1, V10, V20, S1, S2, S6 to S8 -/

/-- V1, U16. -/
theorem test_divstep16 : [0x0000#16, 0x0001#16, 0x0003#16, 0x8000#16, 0xFFFF#16].map (divStep Config.arc) =
    [0x0000#16, 0xA001#16, 0xA000#16, 0x4000#16, 0xDFFE#16] := by
  decide

/-- V1, U32. -/
theorem test_divstep32 : [0x00000001#32, 0x80000000#32, 0x80000001#32, 0xFFFFFFFF#32, 0xFFFFFFCE#32].map (divStep Config.isoHdlc) =
    [0xEDB88320#32, 0x40000000#32, 0xADB88320#32, 0x92477CDF#32, 0x7FFFFFE7#32] := by
  decide

/-- V12: folds from a nonzero register. -/
theorem test_fold16_from_register : [fold16 0xFFFF#16 0x00#8, fold16 0x1234#16 0x34#8, fold16 0xABCD#16 0x00#8] =
    [0x40BF#16, 0x0012#16, 0x956A#16] := by
  decide +kernel

/-- V25. -/
theorem test_fold32_from_register : [fold32 0x80000000#32 0x00#8, fold32 0x7C231048#32 0x32#8] = [0x00800000#32, 0xB0ACBB32#32] := by
  decide +kernel

/-- S1 and S7. -/
theorem test_compute16 : compute16 [0xA3#8, 0x57#8, 0x11#8] = 0x1E0E#16 ∧ compute16 [] = 0x0000#16 := by decide +kernel

/-- S6 and S8. -/
theorem test_compute32 : compute32 [0x31#8, 0x32#8, 0x33#8] = 0x884863D2#32 ∧ compute32 [] = 0x00000000#32 := by decide +kernel

/-- S2, from its text. -/
theorem test_compute16_text : compute16 (("123456789".toList).map charCode) = 0xBB3D#16 := by decide +kernel

/-! ### The assembler (R57, R58) -/

/-- R57's own examples. -/
theorem test_assemble_byte : assembleLine "BYTE16 0xA3 ; held".toList = some [.byte16 0xA3#8] ∧
    assembleLine "BYTE32 49".toList = some [.byte32 0x31#8] ∧ assembleLine "BYTE32 '1'".toList = some [.byte32 0x31#8] := by
  decide +kernel

/-- R57: an operand above 255, a lower-case mnemonic and a missing operand are no commands. -/
theorem test_assemble_refuses : assembleLine "BYTE16 256".toList = none ∧ assembleLine "start16".toList = none ∧
    assembleLine "BYTE16".toList = none ∧ assembleLine "BYTE 49".toList = none := by
  decide +kernel

/-- R58: the two pseudo-instructions, and the empty message. -/
theorem test_assemble_pseudo : assembleLine "CRC16 0xA3, 0b1010111, 17".toList =
      some [.start16, .byte16 0xA3#8, .byte16 0x57#8, .byte16 0x11#8, .finish16] ∧
    assembleLine "CRC32".toList = some [.start32, .finish32] := by
  decide +kernel

/-! ### Witnesses: each obligation's hypotheses are met, clause by clause -/

theorem witness_DecodeReadsFieldsAsNumbers :
    (0x500#11).toNat / 256 % 4 = 1 ∧ (0x500#11).toNat % 256 = 0 ∧ (0x2FF#11).toNat / 256 % 4 = 2 ∧
    (0x700#11).toNat / 256 % 4 = 3 ∧ (0x700#11).toNat % 256 = 0 ∧ (0x4FF#11).toNat / 256 % 4 = 0 ∧
    (0x101#11).toNat / 256 % 4 = 1 ∧ (0x101#11).toNat % 256 ≠ 0 ∧ (0x7FF#11).toNat / 256 % 4 = 3 ∧ (0x7FF#11).toNat % 256 ≠ 0 := by
  decide

theorem witness_ReservedWordRaisesIllegalCommand : ∀ p ∈ [Phase.idle, .active, .done],
    decode 0x0FF#11 = .reserved .u16 .opZero ∧ (st p p [0x0FF#11] [.command]).turn = .command ∧
    (st p p [0x0FF#11] [.command]).port = 0x0FF#11 :: [] ∧ (st p p [0x0FF#11] [.command]).u16.ph = p ∧
    decode 0x701#11 = .reserved .u32 .finishWithData ∧ (st p p [0x701#11] [.command]).turn = .command ∧
    (st p p [0x701#11] [.command]).port = 0x701#11 :: [] ∧ (st p p [0x701#11] [.command]).u32.ph = p := by
  decide

/-- Legal words, held, in effect, disallowed and discarded, for units whose cause is not 1. -/
theorem witness_ReservedWordRaisesIllegalCommand_legal : ∀ p ∈ phases,
    decode 0x2FF#11 = .legal (.byte16 0xFF#8) ∧ (st p .idle [0x2FF#11] [.command]).turn = .command ∧
    (st p .idle [0x2FF#11] [.command]).port = 0x2FF#11 :: [] ∧ (after (step (st p .idle [0x2FF#11] [.command]))).isSome = true ∧
    ((st p .idle [0x2FF#11] [.command]).ctl .u16).fcause ≠ 1#2 ∧ ((st p .idle [0x2FF#11] [.command]).ctl .u32).fcause ≠ 1#2 := by
  decide

theorem witness_PlacedWordRunsNext : 11 ≤ 11 ∧ State.reset.phase (Instr.byte32 0xFF#8).unit ≠ .shift ∧ 11 ≤ 16 := by decide

theorem witness_StepRunsDecodedInstruction :
    (st .shift .active [0x631#11, 0x300#11] [.command]).turn = .command ∧
    (st .shift .active [0x631#11, 0x300#11] [.command]).port = 0x631#11 :: [0x300#11] ∧ decode 0x631#11 = .legal (.byte32 0x31#8) ∧
    (st .shift .active [0x631#11, 0x300#11] [.command]).phase (Instr.byte32 0x31#8).unit ≠ .shift := by
  decide

theorem witness_BusyUnitHoldsThePort :
    (st .shift .idle [0x300#11] [.command]).turn = .command ∧ cmdAccept (st .shift .idle [0x300#11] [.command]) = false ∧
    (st .idle .idle [] [.command]).turn = .command ∧ cmdAccept (st .idle .idle [] [.command]) = false ∧
    (st .fault .shift [0x0FF#11] [.command]).turn = .command ∧ (st .fault .shift [0x0FF#11] [.command]).phase (unitOf 0x0FF#11) ≠ .shift := by
  decide

/-- Every cell of R139's table. -/
theorem witness_CommandPhaseTable : ∀ p ∈ phases, (st p p [] []).phase .u16 = p ∧ (st p p [] []).phase .u32 = p := by decide

/-- The phases of the clauses of the three statements about U16's commands; in SHIFT with the word on the port. -/
theorem witness_U16Commands : (∀ p ∈ phases, (st p .idle [] []).u16.ph = p) ∧
    (∀ w ∈ [0x100#11, 0x200#11, 0x200#11 + (0xFF#8).setWidth 11, 0x300#11],
      (st .shift .idle [w] [.command]).u16.ph = .shift ∧ (st .shift .idle [w] [.command]).turn = .command ∧
      (st .shift .idle [w] [.command]).port = w :: []) := by
  decide

theorem witness_U32Commands : (∀ p ∈ phases, (st .idle p [] []).u32.ph = p) ∧
    (∀ w ∈ [0x500#11, 0x600#11, 0x600#11 + (0xFF#8).setWidth 11, 0x700#11],
      (st .idle .shift [w] [.command]).u32.ph = .shift ∧ (st .idle .shift [w] [.command]).turn = .command ∧
      (st .idle .shift [w] [.command]).port = w :: []) := by
  decide

theorem witness_BitStep16DividesWorkingValue :
    (st .shift .idle [] [.own .u16]).turn = .own .u16 ∧ (st .shift .idle [] [.own .u16]).u16.ph = .shift ∧
    (st .shift .idle [] [.own .u16]).u16.cnt ≠ 0#4 ∧ (st .done .idle [] [.own .u16]).turn = .own .u16 ∧
    (st .done .idle [] [.own .u16]).u16.ph ≠ .shift := by
  decide

theorem witness_Fold16EndsTheFold :
    foldDue.turn = .own .u16 ∧ foldDue.u16.ph = .shift ∧ foldDue.u16.cnt = 0#4 ∧
    (st .shift .idle [] [.own .u16]).turn = .own .u16 ∧ (st .shift .idle [] [.own .u16]).u16.cnt ≠ 0#4 ∧
    (st .active .idle [] [.own .u16]).turn = .own .u16 ∧ (st .active .idle [] [.own .u16]).u16.ph ≠ .shift := by
  decide

theorem witness_BitStep32DividesRegister :
    lastStepDue.turn = .own .u32 ∧ lastStepDue.u32.ph = .shift ∧ lastStepDue.u32.cnt ≠ 0#4 ∧ lastStepDue.u32.cnt = 1#4 ∧
    (st .idle .shift [] [.own .u32]).turn = .own .u32 ∧ (st .idle .shift [] [.own .u32]).u32.ph = .shift ∧
    (st .idle .shift [] [.own .u32]).u32.cnt = 8#4 ∧
    (st .idle .fault [] [.own .u32]).turn = .own .u32 ∧ (st .idle .fault [] [.own .u32]).u32.ph ≠ .shift := by
  decide

/-- A step that goes on with a faulted U16, one with a faulted U32, a word for a faulted unit, and a reset. -/
theorem witness_FaultIsStickyUntilReset :
    ((after (step (st .fault .shift [0x0FF#11] [.command]))).isSome = true ∧ isReset (st .fault .shift [0x0FF#11] [.command]).turn = false ∧
      (st .fault .shift [0x0FF#11] [.command]).u16.ph = .fault) ∧
    ((after (step (st .shift .fault [] [.own .u16]))).isSome = true ∧ isReset (st .shift .fault [] [.own .u16]).turn = false ∧
      (st .shift .fault [] [.own .u16]).u32.ph = .fault) ∧
    ((st .fault .fault [0x700#11] [.command]).turn = .command ∧ (st .fault .fault [0x700#11] [.command]).port = 0x700#11 :: [] ∧
      (st .fault .fault [0x700#11] [.command]).phase (unitOf 0x700#11) = .fault) ∧
    isReset (st .fault .fault [] [.reset 3]).turn = true := by
  decide

/-- Resets that keep and withdraw the word; in every phase a reserved word, a START, a BYTE and a FINISH. -/
theorem witness_ChecksAreMadeInOrder :
    (st .shift .fault [0x000#11] [.reset 0]).port = 0x000#11 :: [] ∧ (st .shift .fault [0x000#11] [.reset 0]).turn = .reset 0 ∧
    (st .idle .done [0x631#11] [.reset 1]).port = 0x631#11 :: [] ∧ (st .idle .done [0x631#11] [.reset 1]).turn = .reset 1 ∧
    (∀ p ∈ phases, ∀ w ∈ [0x000#11, 0x100#11, 0x231#11, 0x300#11], unitOf w = .u16 ∧ (st p .idle [w] [.command]).phase .u16 = p ∧
      (st p .idle [w] [.command]).port = w :: [] ∧ (st p .idle [w] [.command]).turn = .command) := by
  decide

theorem witness_ResetTurnClearsBothUnits :
    (st .shift .done [0x300#11, 0x500#11] [.reset 0]).turn = .reset 0 ∧ (st .fault .active [0x300#11] [.reset 2]).turn = .reset 2 := by
  decide

theorem witness_ResetTurnKeepsTheOtherWords :
    (st .shift .done [0x300#11, 0x500#11] [.reset 1]).turn = .reset 1 ∧ (st .idle .idle [0x300#11] [.reset 5]).turn = .reset 5 := by
  decide

/-- All six commands answer a next state in a phase that allows them, and in the phases of a fault. -/
theorem witness_CommandsLeaveTheRestUnchanged :
    (∀ i ∈ [Instr.start16, .byte16 0xFF#8, .finish16, .start32, .byte32 0x00#8, .finish32], ∀ p ∈ phases,
      (after (exec i (st p p [] []))).isSome = true) ∧
    (after (exec .finish32 (st .idle .idle [] []))).any (fun t => decide (t.u32.fcause ≠ (st .idle .idle [] []).u32.fcause)) = true := by
  decide

theorem witness_OwnStepsLeaveTheRestUnchanged :
    foldDue.turn = .own .u16 ∧ (after (step foldDue)).isSome = true ∧ foldDue.u16.cnt = 0#4 ∧
    (st .shift .idle [] [.own .u16]).turn = .own .u16 ∧ (after (step (st .shift .idle [] [.own .u16]))).isSome = true ∧
    (st .shift .idle [] [.own .u16]).u16.cnt ≠ 0#4 ∧ lastStepDue.turn = .own .u32 ∧ (after (step lastStepDue)).isSome = true := by
  decide

theorem witness_UnitsAreIndependent :
    (st .active .shift [0x301#11] [.command]).turn = .command ∧ cmd (st .active .shift [0x301#11] [.command]) = some 0x301#11 ∧
    unitOf 0x301#11 = .u16 ∧ (after (step (st .active .shift [0x301#11] [.command]))).isSome = true ∧
    (st .shift .done [0x500#11] [.command]).turn = .command ∧ cmd (st .shift .done [0x500#11] [.command]) = some 0x500#11 ∧
    unitOf 0x500#11 = .u32 ∧ (after (step (st .shift .done [0x500#11] [.command]))).isSome = true ∧
    foldDue.turn = .own .u16 ∧ (after (step foldDue)).isSome = true ∧
    lastStepDue.turn = .own .u32 ∧ (after (step lastStepDue)).isSome = true := by
  decide

theorem witness_OwnTurnsCommute :
    (∀ t ∈ [Config.Turn.own .u16, .own .u32, .own .u16], ∃ u, t = .own u) ∧
    [Config.Turn.own .u16, .own .u32, .own .u16].Perm [.own .u32, .own .u16, .own .u16] := by
  exact ⟨by simp, .swap _ _ _⟩

/-- The invariant holds in every phase of both units. -/
theorem witness_StateInv : ∀ p ∈ phases, ∀ q ∈ phases, StateInv (st p q [0x631#11] [.command]) := by decide +kernel

/-- It holds with U16's last own step due. -/
theorem witness_StateInv_foldDue : StateInv foldDue := by decide

/-- It holds with U32's last own step due. -/
theorem witness_StateInv_lastStepDue : StateInv lastStepDue := by decide

/-- From such states a step goes on. -/
theorem witness_InvariantIsKept : (∀ p ∈ phases, ∀ q ∈ phases, (after (step (st p q [0x631#11] [.command]))).isSome = true) ∧
    (after (step foldDue)).isSome = true ∧ (after (step lastStepDue)).isSome = true := by
  decide +kernel

/-- One step of each kind goes on: reset, own turns, a word held, a legal and a reserved word, no word. -/
theorem witness_PhasesFollowTheTransitionTable :
    (after (step (st .done .fault [] [.reset 0]))).isSome = true ∧ (after (step foldDue)).isSome = true ∧
    (after (step lastStepDue)).isSome = true ∧ (after (step (st .shift .idle [0x300#11] [.command]))).isSome = true ∧
    (after (step (st .idle .idle [0x500#11] [.command]))).isSome = true ∧
    (after (step (st .active .idle [0x1FF#11] [.command]))).isSome = true ∧
    (after (step (st .idle .idle [] [.command]))).isSome = true := by
  decide

/-- Reset; entry to FAULT with each cause; FAULT kept; a phase that is not FAULT reached. -/
theorem witness_CauseIsWrittenOnlyOnFaultEntryOrReset :
    isReset (st .fault .fault [] [.reset 0]).turn = true ∧
    (after (step (st .idle .idle [0x200#11] [.command]))).map (fun t => (t.phase .u16, t.u16.fcause)) = some (.fault, 2#2) ∧
    (after (step (st .idle .idle [0x001#11] [.command]))).map (fun t => (t.phase .u16, t.u16.fcause)) = some (.fault, 1#2) ∧
    (after (step (st .fault .idle [0x001#11] [.command]))).map (fun t => (t.phase .u16, t.u16.fcause)) = some (.fault, 2#2) ∧
    (after (step (st .idle .idle [0x100#11] [.command]))).map (fun t => t.phase .u16) = some .active ∧
    isReset (st .idle .idle [0x100#11] [.command]).turn = false := by
  decide

/-- A result is shown while the other unit is given a word, and in the unit's own turn. -/
theorem witness_ResultIsShownOnlyInDone :
    (∀ p ∈ phases, (st p p [] []).u16.ph = p ∧ (st p p [] []).u32.ph = p) ∧
    (after (step (st .done .done [0x500#11] [.command]))).isSome = true ∧ isReset (st .done .done [0x500#11] [.command]).turn = false ∧
    acceptsFor .u16 (st .done .done [0x500#11] [.command]) = false ∧ res16 (st .done .done [0x500#11] [.command]) = some 0xBB3D#16 ∧
    acceptsFor .u32 (st .done .done [0x100#11] [.command]) = false ∧
    res32 (st .done .done [0x100#11] [.command]) = some 0x884863D2#32 ∧
    (after (step (st .done .done [0x100#11] [.command]))).isSome = true := by
  decide

theorem witness_BusyUnitProgressesOnlyByItself :
    foldDue.u16.ph = .shift ∧ foldDue.turn = .own .u16 ∧ (after (step foldDue)).isSome = true ∧ isReset foldDue.turn = false ∧
    (st .shift .shift [] [.own .u32]).u16.ph = .shift ∧ (st .shift .shift [] [.own .u32]).turn ≠ .own .u16 ∧
    (after (step (st .shift .shift [] [.own .u32]))).isSome = true ∧
    lastStepDue.u32.ph = .shift ∧ lastStepDue.turn = .own .u32 ∧ (after (step lastStepDue)).isSome = true ∧
    (st .shift .shift [0x700#11] [.command]).u32.ph = .shift ∧ (st .shift .shift [0x700#11] [.command]).turn ≠ .own .u32 ∧
    (after (step (st .shift .shift [0x700#11] [.command]))).isSome = true := by
  decide

theorem witness_QuietUnitKeepsItsState :
    (after (step (st .active .done [0x500#11] [.command]))).isSome = true ∧ isReset (st .active .done [0x500#11] [.command]).turn = false ∧
    (st .active .done [0x500#11] [.command]).u16.ph ≠ .shift ∧ acceptsFor .u16 (st .active .done [0x500#11] [.command]) = false ∧
    (after (step (st .shift .fault [] [.own .u16]))).isSome = true ∧ isReset (st .shift .fault [] [.own .u16]).turn = false ∧
    (st .shift .fault [] [.own .u16]).u32.ph ≠ .shift ∧ acceptsFor .u32 (st .shift .fault [] [.own .u16]) = false := by
  decide

/-- Two states that differ in every register the host cannot see. -/
theorem witness_IntermediateRegistersAreHidden :
    let s := st .shift .done [0x300#11] []
    let t : State := { s with
      u16 := { s.u16 with crc := 0xFFFF#16, wrk := 0x1234#16, cnt := 1#4 }, u32 := { s.u32 with cnt := 5#4 } }
    s ≠ t ∧ s.port = t.port ∧ s.u16.ph = t.u16.ph ∧ s.u16.fcause = t.u16.fcause ∧ s.u32.ph = t.u32.ph ∧ s.u32.fcause = t.u32.fcause ∧
      (s.u16.ph = .done → s.u16.crc = t.u16.crc) ∧ (s.u32.ph = .done → s.u32.crc = t.u32.crc) ∧ s.u32.ph = .done := by
  decide

/-- V12: a register whose low byte is zero, at the byte's width and at the whole width. -/
theorem witness_DivisionStepsOnZeroLowBitsShift :
    (8 ≤ 16 ∧ ∀ j, j < 8 → (0x1200#16).getLsbD j = false) ∧ (32 ≤ 32 ∧ ∀ j, j < 32 → (0x00000000#32).getLsbD j = false) := by
  decide

/-- BYTE16 accepted with its nine turns scheduled. -/
theorem witness_Byte16FoldsInNineSteps :
    let s := st .active .shift [] (List.replicate 9 (.own .u16) ++ [.own .u32])
    s.u16.ph = .active ∧ (after (exec (.byte16 0xFF#8) s)).map State.sched = some (List.replicate 9 (.own .u16) ++ [.own .u32]) := by
  decide

theorem witness_Byte32FoldsInEightSteps :
    let s := st .shift .active [] (List.replicate 8 (.own .u32) ++ [.own .u16])
    s.u32.ph = .active ∧ (after (exec (.byte32 0xFF#8) s)).map State.sched = some (List.replicate 8 (.own .u32) ++ [.own .u16]) := by
  decide

theorem witness_EmptyMessagePublishesZero : (st .idle .done [] []).u16.ph = .idle ∧ (st .idle .done [] []).u32.ph = .done ∧
    (st .done .idle [] []).u16.ph = .done ∧ (st .done .idle [] []).u32.ph = .idle := by
  decide

theorem witness_StartErasesHistory :
    StateInv (st .idle .done [] []) ∧ StateInv (st .done .idle [] []) ∧ (st .idle .done [] []).u16.ph = .idle ∧
    (st .done .idle [] []).u16.ph = .done ∧ (st .idle .done [] []).u32.ph = .done ∧ (st .done .idle [] []).u32.ph = .idle := by
  decide

/-- A transaction of one byte on U16, with a whole one and a reserved word for U32 on the same port, and a schedule without a reset. -/
theorem witness_TransactionComputesCrc16 :
    let s := st .idle .shift [0x100#11, 0x4FF#11, 0x261#11, 0x700#11, 0x300#11] ([.command, .own .u32] ++ List.replicate 9 .command)
    StateInv s ∧ s.u16.ph = .idle ∧
      wordsFor .u16 s.port = (Instr.start16 :: ([0x61#8].map .byte16 ++ [.finish16])).map encode ∧ (∀ t ∈ s.sched, isReset t = false) := by
  decide

theorem witness_TransactionComputesCrc32 :
    let s := st .fault .done [0x500#11, 0x100#11, 0x000#11, 0x641#11, 0x700#11] ([.command, .own .u16] ++ List.replicate 9 .command)
    StateInv s ∧ s.u32.ph = .done ∧
      wordsFor .u32 s.port = (Instr.start32 :: ([0x41#8].map .byte32 ++ [.finish32])).map encode ∧ (∀ t ∈ s.sched, isReset t = false) := by
  decide

/-- All the words of a transaction accepted, the case of the statement's last clause: the empty message. -/
theorem witness_TransactionComputesCrc16_ends :
    (after (run 2 (st .done .idle [0x100#11, 0x300#11] [.command, .command]))).map (fun t => (wordsFor .u16 t.port, res16 t)) =
      some ([], some 0x0000#16) := by
  decide

theorem witness_TransactionComputesCrc32_ends :
    (after (run 2 (st .idle .idle [0x500#11, 0x700#11] [.command, .command]))).map (fun t => (wordsFor .u32 t.port, res32 t)) =
      some ([], some 0x00000000#32) := by
  decide

theorem witness_TransactionTakesItsSteps :
    (let s := st .idle .shift [0x100#11, 0x261#11, 0x300#11, 0x000#11]
        ([.command, .command] ++ List.replicate 9 (.own .u16) ++ [.command, .reset 0])
     s.u16.ph = .idle ∧ s.port = (Instr.start16 :: ([0x61#8].map .byte16 ++ [.finish16])).map encode ++ [0x000#11] ∧
      s.sched = .command :: ([0x61#8].flatMap (fun _ => .command :: List.replicate 9 (.own .u16)) ++ .command :: [.reset 0])) ∧
    (let s := st .fault .done [0x500#11, 0x641#11, 0x700#11] ([.command, .command] ++ List.replicate 8 (.own .u32) ++ [.command])
     s.u32.ph = .done ∧ s.port = (Instr.start32 :: ([0x41#8].map .byte32 ++ [.finish32])).map encode ++ [] ∧
      s.sched = .command :: ([0x41#8].flatMap (fun _ => .command :: List.replicate 8 (.own .u32)) ++ .command :: [])) := by
  decide

/-- A busy U16 with its last step due and a word behind it: 1 and 10 steps of work, in 11 rounds. -/
theorem witness_FairRoundsFinishAllWork :
    let rounds : List (List Config.Turn) := List.replicate 11 [.own .u32, .command, .own .u16]
    let s := { foldDue with port := [0x300#11], sched := rounds.flatten }
    StateInv s ∧ (∀ r ∈ rounds, .command ∈ r ∧ .own .u16 ∈ r ∧ .own .u32 ∈ r ∧ ∀ t ∈ r, isReset t = false) ∧
      s.sched = rounds.flatten ∧ ownStepsLeft .u16 s + ownStepsLeft .u32 s + 10 * s.port.length ≤ rounds.length := by
  intro rounds s
  exact ⟨witness_StateInv_foldDue, fun r hr => by rw [(List.mem_replicate.1 hr).2]; decide, rfl, by decide⟩

/-- An endless schedule in which the host, U16 and U32 move in turn. -/
def roundRobin (n : Nat) : Config.Turn :=
  match n % 3 with
  | 0 => .command
  | 1 => .own .u16
  | _ => .own .u32

/-- Each of the three moves again and again. -/
theorem roundRobin_recurs (t : Config.Turn) (ht : t ∈ [Config.Turn.command, .own .u16, .own .u32]) (n : Nat) :
    ∃ m, n ≤ m ∧ roundRobin m = t := by
  simp only [List.mem_cons, List.not_mem_nil, or_false] at ht
  rcases ht with rfl | rfl | rfl
  · exact ⟨3 * n, by omega, by simp [roundRobin]⟩
  · exact ⟨3 * n + 1, by omega, by simp [roundRobin, Nat.add_mod]⟩
  · exact ⟨3 * n + 2, by omega, by simp [roundRobin, Nat.add_mod]⟩

/-- It is weakly fair to both units, from every state. -/
theorem roundRobin_fair (u : UnitId) (s : State) : WeaklyFair u roundRobin s :=
  fun n _ => roundRobin_recurs (.own u) (by cases u <;> simp) n

/-- The hypotheses on an endless schedule: nobody resets, both units are treated fairly, the host moves again and again. -/
theorem witness_FairRoundsFinishAllWork_endless :
    StateInv { foldDue with port := [0x300#11] } ∧ (∀ n, isReset (roundRobin n) = false) ∧
    WeaklyFair .u16 roundRobin { foldDue with port := [0x300#11] } ∧ WeaklyFair .u32 roundRobin { foldDue with port := [0x300#11] } ∧
    (∀ n, ∃ m, n ≤ m ∧ roundRobin m = .command) :=
  ⟨witness_StateInv_foldDue, fun n => by unfold roundRobin; split <;> rfl, roundRobin_fair _ _, roundRobin_fair _ _,
    roundRobin_recurs .command (by simp)⟩

/-- A busy unit with a word held for it, and a schedule that is fair to it. -/
theorem witness_FairnessEndsEveryFold :
    StateInv { lastStepDue with port := [0x700#11] } ∧ ({ lastStepDue with port := [0x700#11] } : State).port = 0x700#11 :: [] ∧
    ({ lastStepDue with port := [0x700#11] } : State).phase (unitOf 0x700#11) = .shift ∧
    WeaklyFair (unitOf 0x700#11) roundRobin { lastStepDue with port := [0x700#11] } ∧ (∀ n, isReset (roundRobin n) = false) :=
  ⟨witness_StateInv_lastStepDue, rfl, by decide, roundRobin_fair _ _, fun n => by unfold roundRobin; split <;> rfl⟩

/-- A transaction to come, with a reserved word for U32 before it. -/
theorem witness_TransactionIsCarriedThrough_toCome :
    Transaction16 [0x61#8] (st .done .idle [0x4FF#11, 0x100#11, 0x261#11, 0x300#11] [.command]) ∧
    Transaction32 [0x41#8] (st .fault .idle [0x500#11, 0x641#11, 0x100#11, 0x700#11] [.command]) :=
  ⟨.inl ⟨.inr rfl, by decide⟩, .inl ⟨.inl rfl, by decide⟩⟩

/-- A transaction whose first byte is being divided (R82, R100) and whose second is to come, in a unit's own turn. -/
theorem witness_TransactionIsCarriedThrough_open :
    Transaction16 [0xA3#8, 0x57#8] (st .shift .idle [0x257#11, 0x300#11] [.own .u16]) ∧
    Transaction32 [0x31#8, 0x32#8] (st .idle .shift [0x632#11, 0x700#11] [.own .u32]) :=
  ⟨.inr (.inl ⟨[0xA3#8], [0x57#8], rfl, by decide, .inr rfl, by decide +kernel⟩),
    .inr (.inl ⟨[0x31#8], [0x32#8], rfl, by decide, .inr rfl, by decide +kernel⟩)⟩

/-- A transaction that is over (S2, S6), with no word left for its unit. -/
theorem witness_TransactionIsCarriedThrough_over :
    Transaction16 ("123456789".toList.map charCode) (st .done .idle [0x500#11] [.command]) ∧
    wordsFor .u16 (st .done .idle [0x500#11] [.command]).port = [] ∧
    Transaction32 [0x31#8, 0x32#8, 0x33#8] (st .idle .done [0x100#11] [.command]) ∧
    wordsFor .u32 (st .idle .done [0x100#11] [.command]).port = [] :=
  ⟨.inr (.inr ⟨rfl, by decide, by decide +kernel⟩), by decide, .inr (.inr ⟨rfl, by decide, by decide +kernel⟩), by decide⟩

/-- From the three stages a step that is no reset goes on. -/
theorem witness_TransactionIsCarriedThrough_steps :
    ∀ s ∈ [st .done .idle [0x4FF#11, 0x100#11, 0x261#11, 0x300#11] [.command], st .shift .idle [0x257#11, 0x300#11] [.own .u16],
        st .idle .shift [0x632#11, 0x700#11] [.own .u32], st .idle .done [0x100#11] [.command]],
      isReset s.turn = false ∧ (after (step s)).isSome = true := by
  decide

theorem witness_WrapperRefusesNonBytes : (∃ x ∈ [(0 : Int), 256], x < 0 ∨ 255 < x) ∧ (∃ x ∈ [(-1 : Int)], x < 0 ∨ 255 < x) ∧
    (∀ x ∈ [(0 : Int), 255], 0 ≤ x ∧ x ≤ 255) := by
  decide

/-- Printable characters, a semicolon, a comma and the ends of the range among them. -/
theorem witness_StringPseudoInstructionExpands :
    ∀ c ∈ ['a', ';', ',', ' ', '~'], 0x20 ≤ c.toNat ∧ c.toNat ≤ 0x7E ∧ c ≠ doubleQuote := by
  intro c hc
  simp only [List.mem_cons, List.not_mem_nil, or_false] at hc
  rcases hc with rfl | rfl | rfl | rfl | rfl <;> decide

end Sys2Proof.Machine.Test
end

section
/-! PROOFS. R3: neither unit reads or writes the other.

One property says both. A transformation is local to a unit when replacing the other unit's registers before it is the same as
replacing them after it. Replaced by themselves, they come out as they went in, so a local transformation does not write them either. -/

namespace Sys2Proof.Machine

/-! ### The other unit replaced -/

/-- The state `s` with the registers of the unit that is not `u` taken from `r`. -/
def State.withOther (u : UnitId) (r s : State) : State :=
  match u with
  | .u16 => { s with u32 := r.u32 }
  | .u32 => { s with u16 := r.u16 }

@[simp] theorem withOther_self (u : UnitId) (s : State) : State.withOther u s s = s := by cases u <;> rfl

@[simp] theorem withOther_u16 (r s : State) : (State.withOther .u16 r s).u16 = s.u16 := rfl

@[simp] theorem withOther_u32 (r s : State) : (State.withOther .u32 r s).u32 = s.u32 := rfl

@[simp] theorem withOther_phase (u : UnitId) (r s : State) : (State.withOther u r s).phase u = s.phase u := by cases u <;> rfl

@[simp] theorem withOther_port (u : UnitId) (r s : State) : (State.withOther u r s).port = s.port := by cases u <;> rfl

@[simp] theorem withOther_turn (u : UnitId) (r s : State) : (State.withOther u r s).turn = s.turn := by cases u <;> rfl

theorem withOther_advance (u : UnitId) (r s : State) :
    (State.withOther u r s).advance = State.withOther u r s.advance := by cases u <;> rfl

theorem withOther_setPort (u : UnitId) (r s : State) (ws : List CmdWord) :
    { State.withOther u r s with port := ws } = State.withOther u r { s with port := ws } := by cases u <;> rfl

/-! ### Local transformations -/

/-- `f` neither reads nor writes the unit that is not `u`. -/
def LocalUpdate (u : UnitId) (f : State → State) : Prop :=
  ∀ r s, f (State.withOther u r s) = State.withOther u r (f s)

/-- Where `f` goes on, it neither reads nor writes the unit that is not `u`. -/
def LocalTurn (u : UnitId) (f : State → Host.Outcome State Fault Refusal) : Prop :=
  ∀ r s t, f s = .next t → f (State.withOther u r s) = .next (State.withOther u r t)

theorem raiseFault_local (u : UnitId) (c : Cause) : LocalUpdate u (raiseFault u c) := by
  intro r s
  cases u <;> rfl

theorem microOp_local (i : Instr) : LocalUpdate i.unit (microOp i) := by
  intro r s
  cases i <;> rfl

/-! ### The host's turn -/

/-- Acceptance reads the phase of its own unit only, so it is local where its judgement is. -/
theorem acceptAt_local {u : UnitId} {judge : Phase → State → State} (hj : ∀ p, LocalUpdate u (judge p)) :
    LocalTurn u (acceptAt u judge) := by
  intro r s t h
  rcases acceptAt_cases u judge s with ⟨hp, e⟩ | ⟨hs, hf, e⟩ <;> rw [e] at h <;> cases h
  · exact acceptAt_idles (by simpa using hp)
  · rw [acceptAt_judges (by simpa using hs) (by simpa using hf), withOther_phase, hj]

theorem acceptReserved_local (u : UnitId) : LocalTurn u (acceptReserved u) :=
  acceptAt_local fun _ => raiseFault_local u .illegalCommand

/-- A command is judged by its own unit's phase, and its micro-operation and its fault are that unit's. -/
theorem exec_local (i : Instr) : LocalTurn i.unit (exec i) := by
  have judged : ∀ p, LocalUpdate i.unit fun s => if allowedFor i p then microOp i s else raiseFault i.unit .protocolError s := by
    intro p
    cases allowedFor i p
    · exact raiseFault_local i.unit .protocolError
    · exact microOp_local i
  intro r s t h
  rw [exec_eq_accept] at h ⊢
  exact acceptAt_local judged r s t h

/-- R50: legal or reserved, a word concerns the unit its bit 10 names. -/
theorem perform_local (w : CmdWord) : LocalTurn (unitOf w) (perform (decode w)) := by
  cases hd : decode w with
  | legal i => exact decode_legal_unit hd ▸ exec_local i
  | reserved u k => exact decode_reserved_unit hd ▸ acceptReserved_local u

/-- R56: a word for a unit in SHIFT is held; any other is taken off the port and performed. -/
theorem commandTurn_cons {s : State} {w : CmdWord} {rest : List CmdWord} (h : s.port = w :: rest) :
    commandTurn s = if s.phase (unitOf w) = .shift then .next s else perform (decode w) { s with port := rest } := by
  simp only [commandTurn, h, cmdAccept_cons h, ite_not]

/-- The host's turn concerns the unit its word addresses. -/
theorem commandTurn_withOther {s t : State} {w : CmdWord} (r : State) (hc : cmd s = some w) (h : commandTurn s = .next t) :
    commandTurn (State.withOther (unitOf w) r s) = .next (State.withOther (unitOf w) r t) := by
  obtain ⟨rest, hp⟩ := List.head?_eq_some_iff.1 hc
  rw [commandTurn_cons hp] at h
  rw [commandTurn_cons (by simpa using hp), withOther_phase, withOther_setPort]
  split at h
  case isTrue hs =>
    cases h
    exact if_pos hs
  case isFalse hs => rw [if_neg hs, perform_local w r _ t h]

/-! ### A unit's own turn -/

theorem foldStep16_local : LocalUpdate .u16 foldStep16 := fun _ _ => rfl

theorem bitStep16_local : LocalUpdate .u16 bitStep16 := fun _ _ => rfl

theorem bitStep32_local : LocalUpdate .u32 bitStep32 := fun _ _ => rfl

/-- Which own step is due is read off the unit's own phase and counter (R78, R79). -/
theorem ownStep16_local : LocalTurn .u16 ownStep16 := by
  intro r s t h
  rcases ownStep16_cases s with ⟨hp, e⟩ | ⟨hp, hc, e⟩ | ⟨hp, hc, e⟩ <;> rw [e] at h <;> cases h
  · simp [ownStep16, hp]
  · simp [ownStep16, hp, hc, foldStep16_local r s]
  · simp [ownStep16, hp, hc, bitStep16_local r s]

/-- So is U32's (R98). -/
theorem ownStep32_local : LocalTurn .u32 ownStep32 := by
  intro r s t h
  rcases ownStep32_cases s with ⟨hp, e⟩ | ⟨hp, hc, e⟩ | ⟨hp, hc, e⟩ <;> rw [e] at h <;> cases h
  · simp [ownStep32, hp]
  · simp [ownStep32, hp, hc, bitStep32_local r s]

/-- A unit's own turn concerns that unit only. -/
theorem ownStep_local : ∀ u, LocalTurn u (ownStep u)
  | .u16 => ownStep16_local
  | .u32 => ownStep32_local

/-! ### A step -/

/-- The next step is unit `u`'s: its own turn, or the host's with a word for it. -/
def TurnConcerns (u : UnitId) (s : State) : Prop :=
  s.turn = .own u ∨ s.turn = .command ∧ ∃ w, cmd s = some w ∧ unitOf w = u

/-- A step that is one unit's does not read the other. -/
theorem step_withOther {u : UnitId} {s t : State} (r : State) (hu : TurnConcerns u s) (h : step s = .next t) :
    step (State.withOther u r s) = .next (State.withOther u r t) := by
  rcases hu with ht | ⟨ht, w, hc, rfl⟩
  all_goals
    rw [step_of_turn ht] at h
    rw [step_of_turn (by simpa using ht), withOther_advance]
  · exact ownStep_local u r _ t h
  · exact commandTurn_withOther r hc h

/-- A step that is one unit's does not write the other: with the other unit replaced by itself, it comes out as it went in. -/
theorem withOther_of_step {u : UnitId} {s t : State} (hu : TurnConcerns u s) (h : step s = .next t) :
    State.withOther u s t = t := by
  have hs := step_withOther s hu h
  rw [withOther_self, h] at hs
  exact (Host.Outcome.next.inj hs).symm

/-- R3 for U16's steps, as the obligation states it. -/
theorem step_u16_independent {s t : State} (x : Unit32) (hu : TurnConcerns .u16 s) (h : step s = .next t) :
    t.u32 = s.u32 ∧ step { s with u32 := x } = .next { t with u32 := x } :=
  ⟨(congrArg State.u32 (withOther_of_step hu h)).symm, step_withOther { s with u32 := x } hu h⟩

/-- R3 for U32's steps, as the obligation states it. -/
theorem step_u32_independent {s t : State} (x : Unit16) (hu : TurnConcerns .u32 s) (h : step s = .next t) :
    t.u16 = s.u16 ∧ step { s with u16 := x } = .next { t with u16 := x } :=
  ⟨(congrArg State.u16 (withOther_of_step hu h)).symm, step_withOther { s with u16 := x } hu h⟩

/-- Settles O28: every step that concerns one unit commutes with replacing the other. -/
theorem unitsAreIndependent : Obligations.UnitsAreIndependent :=
  ⟨fun w _ _ x ht hc hw h => step_u16_independent x (.inr ⟨ht, w, hc, hw⟩) h,
   fun w _ _ x ht hc hw h => step_u32_independent x (.inr ⟨ht, w, hc, hw⟩) h,
   fun _ _ x ht h => step_u16_independent x (.inl ht) h,
   fun _ _ x ht h => step_u32_independent x (.inl ht) h⟩

end Sys2Proof.Machine
end

section
/-! PROOFS. The phase and the cause of each unit (R15, R20), and the status word that shows them (R18, R24).

What a step does to a unit's phase and what it does to the unit's cause are one argument: `MovesTo` says both of a pair of control
registers, and every turn but a reset keeps it, with the phase that the transition table gives. -/

namespace Sys2Proof.Machine

/-! ### A move of the control registers -/

/-- The control registers go from `c` to `d`, which is in phase `p`, and the cause obeys R20: written on entry to FAULT, kept otherwise. -/
structure MovesTo (p : Phase) (c d : Control) : Prop where
  phase : d.ph = p
  entered : c.ph ≠ .fault → d.ph = .fault → d.fcause = 1#2 ∨ d.fcause = 2#2
  kept : c.ph = .fault ∨ d.ph ≠ .fault → d.fcause = c.fcause

/-- With the phase and the cause both kept, FAULT is not entered. -/
theorem movesTo_same {c d : Control} (hph : d.ph = c.ph) (hcause : d.fcause = c.fcause) : MovesTo c.ph c d :=
  ⟨hph, fun hc hd => absurd (hph.symm.trans hd) hc, fun _ => hcause⟩

/-- A move to a phase that is not FAULT has only to keep the cause. -/
theorem movesTo_of_not_fault {p : Phase} {c d : Control} (hph : d.ph = p) (hp : p ≠ .fault) (hcause : d.fcause = c.fcause) :
    MovesTo p c d :=
  ⟨hph, fun _ hd => absurd (hph.symm.trans hd) hp, fun _ => hcause⟩

/-- R138: fault entry writes the code of the cause. -/
theorem raiseFault_movesTo {u : UnitId} {s : State} (cause : Cause) (hs : s.phase u ≠ .fault) :
    MovesTo .fault (s.ctl u) ((raiseFault u cause s).ctl u) := by
  rw [raiseFault, setCtl_ctl_same]
  refine ⟨rfl, fun _ _ => ?_, fun h => ?_⟩
  · cases cause
    · exact .inl rfl
    · exact .inr rfl
  · exact (h.elim hs (absurd rfl)).elim

/-! ### The host's turn -/

/-- The transition table at the phases in which a word is without effect. -/
theorem phaseAfter_idles {p : Phase} (op : Option Op) (h : p = .shift ∨ p = .fault) : phaseAfter p op = p := by
  rcases h with rfl | rfl <;> rfl

/-- A reserved word in a phase that judges it leads to FAULT. -/
theorem phaseAfter_reserved {p : Phase} (hs : p ≠ .shift) : phaseAfter p none = .fault := by
  cases p
  case shift => exact absurd rfl hs
  all_goals rfl

/-- R139: START is allowed in IDLE and DONE. -/
theorem allowsStart_iff {p : Phase} : allowsStart p = true ↔ p = .idle ∨ p = .done := by
  cases p <;> simp [allowsStart]

/-- R139: BYTE and FINISH are allowed in ACTIVE. -/
theorem allowsByteOrFinish_iff {p : Phase} : allowsByteOrFinish p = true ↔ p = .active := by
  cases p <;> simp [allowsByteOrFinish]

/-- A command in a phase that judges it and does not allow it leads to FAULT. -/
theorem phaseAfter_disallowed {i : Instr} {p : Phase} (hs : p ≠ .shift) (h : allowedFor i p = false) :
    phaseAfter p (some i.op) = .fault := by
  cases p with
  | shift => exact absurd rfl hs
  | fault => rfl
  | idle | done | active => cases i <;> simp_all [phaseAfter, Instr.op, allowedFor, allowsStart, allowsByteOrFinish]

/-- A command in a phase that allows it leads to the phase its micro-operation writes, which is not FAULT. -/
theorem microOp_movesTo {i : Instr} {s : State} (h : allowedFor i (s.phase i.unit) = true) :
    MovesTo (phaseAfter (s.phase i.unit) (some i.op)) (s.ctl i.unit) ((microOp i s).ctl i.unit) := by
  cases i
  case start16 | start32 =>
    rcases allowsStart_iff.1 h with hp | hp <;> rw [hp] <;> exact movesTo_of_not_fault rfl nofun rfl
  all_goals
    rw [allowsByteOrFinish_iff.1 h]
    exact movesTo_of_not_fault rfl nofun rfl

theorem exec_movesTo {i : Instr} {s t : State} (h : exec i s = .next t) :
    MovesTo (phaseAfter (s.phase i.unit) (some i.op)) (s.ctl i.unit) (t.ctl i.unit) := by
  rcases exec_cases i s with ⟨hp, e⟩ | ⟨_, _, ha, e⟩ | ⟨hs, hf, ha, e⟩ <;> rw [e] at h <;> cases h
  · rw [phaseAfter_idles _ hp]
    exact movesTo_same rfl rfl
  · exact microOp_movesTo ha
  · rw [phaseAfter_disallowed hs ha]
    exact raiseFault_movesTo _ hf

theorem acceptReserved_movesTo {u : UnitId} {s t : State} (h : acceptReserved u s = .next t) :
    MovesTo (phaseAfter (s.phase u) none) (s.ctl u) (t.ctl u) := by
  rcases acceptReserved_cases u s with ⟨hp, e⟩ | ⟨hs, hf, e⟩ <;> rw [e] at h <;> cases h
  · rw [phaseAfter_idles _ hp]
    exact movesTo_same rfl rfl
  · rw [phaseAfter_reserved hs]
    exact raiseFault_movesTo _ hf

theorem perform_movesTo {w : CmdWord} {s t : State} (h : perform (decode w) s = .next t) :
    MovesTo (phaseAfter (s.phase (unitOf w)) (opOf (decode w))) (s.ctl (unitOf w)) (t.ctl (unitOf w)) := by
  cases hd : decode w with
  | legal i =>
    rw [hd] at h
    exact decode_legal_unit hd ▸ exec_movesTo h
  | reserved u k =>
    rw [hd] at h
    exact decode_reserved_unit hd ▸ acceptReserved_movesTo h

/-- The transition table covers the held word too (R56): in SHIFT the phase stays. -/
theorem commandTurn_movesTo {w : CmdWord} {s t : State} (hc : cmd s = some w) (h : commandTurn s = .next t) :
    MovesTo (phaseAfter (s.phase (unitOf w)) (opOf (decode w))) (s.ctl (unitOf w)) (t.ctl (unitOf w)) := by
  obtain ⟨rest, hp⟩ := List.head?_eq_some_iff.1 hc
  rw [commandTurn_cons hp] at h
  split at h
  case isTrue hs =>
    cases h
    rw [phaseAfter_idles _ (.inl hs)]
    exact movesTo_same rfl rfl
  case isFalse => simpa using perform_movesTo h

/-! ### A unit's own turn -/

/-- R78, R79, R98: the phase of unit `u` after its own turn. -/
def phaseAfterOwn (u : UnitId) (s : State) : Phase :=
  if s.phase u = .shift ∧ (s.ctl u).cnt = lastCnt u then .active else s.phase u

/-- The last step of a fold leads to ACTIVE. -/
theorem phaseAfterOwn_ends {u : UnitId} {s : State} (hp : s.phase u = .shift) (hc : (s.ctl u).cnt = lastCnt u) :
    phaseAfterOwn u s = .active :=
  if_pos ⟨hp, hc⟩

/-- Outside SHIFT, and in SHIFT before the last step, the phase stays. -/
theorem phaseAfterOwn_stays {u : UnitId} {s : State} (h : s.phase u ≠ .shift ∨ (s.ctl u).cnt ≠ lastCnt u) :
    phaseAfterOwn u s = s.phase u :=
  if_neg fun ⟨hp, hc⟩ => h.elim (· hp) (· hc)

theorem ownStep16_movesTo {s t : State} (h : ownStep16 s = .next t) :
    MovesTo (phaseAfterOwn .u16 s) (s.ctl .u16) (t.ctl .u16) := by
  rcases ownStep16_cases s with ⟨hp, e⟩ | ⟨hp, hc, e⟩ | ⟨hp, hc, e⟩ <;> rw [e] at h <;> cases h
  · rw [phaseAfterOwn_stays (u := .u16) (.inl hp)]
    exact movesTo_same rfl rfl
  · rw [phaseAfterOwn_ends (u := .u16) hp hc]
    exact movesTo_of_not_fault rfl nofun rfl
  · rw [phaseAfterOwn_stays (u := .u16) (.inr hc)]
    exact movesTo_same rfl rfl

theorem ownStep32_movesTo {s t : State} (h : ownStep32 s = .next t) :
    MovesTo (phaseAfterOwn .u32 s) (s.ctl .u32) (t.ctl .u32) := by
  rcases ownStep32_cases s with ⟨hp, e⟩ | ⟨_, _, e⟩ | ⟨hp, _, e⟩ <;> rw [e] at h <;> cases h
  · rw [phaseAfterOwn_stays (u := .u32) (.inl hp)]
    exact movesTo_same rfl rfl
  · by_cases hc : s.u32.cnt = 1#4
    · rw [phaseAfterOwn_ends (u := .u32) hp hc]
      exact movesTo_of_not_fault (if_pos hc) nofun rfl
    · rw [phaseAfterOwn_stays (u := .u32) (.inr hc)]
      exact movesTo_same (if_neg hc) rfl

theorem ownStep_movesTo {s t : State} : ∀ {u}, ownStep u s = .next t → MovesTo (phaseAfterOwn u s) (s.ctl u) (t.ctl u)
  | .u16 => ownStep16_movesTo
  | .u32 => ownStep32_movesTo

/-! ### A step -/

theorem isReset_iff {r : Config.Turn} : isReset r = true ↔ ∃ n, r = .reset n := by
  cases r <;> simp [isReset]

/-- Whose turn a step is: the reset's, one unit's, or the host's with no word to present. -/
theorem turn_cases (s : State) :
    isReset s.turn = true ∨ (∃ u, TurnConcerns u s) ∨ (s.turn = .command ∧ cmd s = none) := by
  cases ht : s.turn with
  | reset n => exact .inl rfl
  | own u => exact .inr (.inl ⟨u, .inl ht⟩)
  | command =>
    cases hc : cmd s with
    | none => exact .inr (.inr ⟨rfl, rfl⟩)
    | some w => exact .inr (.inl ⟨unitOf w, .inr ⟨ht, w, hc, rfl⟩⟩)

/-- R160: a reset leaves each unit in IDLE with no cause, as the transition table has it. -/
theorem step_reset {s t : State} (u : UnitId) (hr : isReset s.turn = true) (h : step s = .next t) :
    nextPhase u s = .idle ∧ t.phase u = .idle ∧ (t.ctl u).fcause = 0#2 := by
  obtain ⟨n, ht⟩ := isReset_iff.1 hr
  rw [step_of_turn ht] at h
  cases h
  cases u <;> simp [nextPhase, ht]

/-- A step that is unit `u`'s moves that unit as the transition table says. -/
theorem step_movesTo_concerned {u : UnitId} {s t : State} (hu : TurnConcerns u s) (h : step s = .next t) :
    MovesTo (nextPhase u s) (s.ctl u) (t.ctl u) := by
  rcases hu with ht | ⟨ht, w, hc, rfl⟩ <;> rw [step_of_turn ht] at h
  · have hn : nextPhase u s = phaseAfterOwn u s.advance := by simp [nextPhase, phaseAfterOwn, ht]
    rw [hn, ← advance_ctl]
    exact ownStep_movesTo h
  · have hn : nextPhase (unitOf w) s = phaseAfter (s.advance.phase (unitOf w)) (opOf (decode w)) := by simp [nextPhase, ht, hc]
    rw [hn, ← advance_ctl]
    exact commandTurn_movesTo (s := s.advance) hc h

theorem withOther_ctl_other {u v : UnitId} (huv : u ≠ v) (r s : State) : (State.withOther v r s).ctl u = r.ctl u := by
  cases u <;> cases v
  case u16.u32 | u32.u16 => rfl
  all_goals exact absurd rfl huv

/-- A step that is another unit's leaves the control registers of `u` as they are, and so does the transition table. -/
theorem step_other_unit {u v : UnitId} {s t : State} (huv : u ≠ v) (hv : TurnConcerns v s) (h : step s = .next t) :
    nextPhase u s = s.phase u ∧ t.ctl u = s.ctl u := by
  constructor
  · rcases hv with ht | ⟨ht, w, hc, rfl⟩
    · simp [nextPhase, ht, huv.symm]
    · simp [nextPhase, ht, hc, huv.symm]
  · rw [← withOther_of_step hv h, withOther_ctl_other huv]

/-- The host's turn with no word to present changes no unit, and so says the transition table. -/
theorem step_no_word {s t : State} (u : UnitId) (ht : s.turn = .command) (hc : cmd s = none) (h : step s = .next t) :
    nextPhase u s = s.phase u ∧ t.ctl u = s.ctl u := by
  have hp : s.advance.port = [] := List.head?_eq_none_iff.1 hc
  rw [step_of_turn ht, takeTurn, commandTurn, hp] at h
  cases h
  exact ⟨by simp [nextPhase, ht, hc], advance_ctl s u⟩

/-- Every step but a reset moves each unit as the transition table says, and writes the cause on entry to FAULT only. -/
theorem step_movesTo {s t : State} (u : UnitId) (hr : isReset s.turn = false) (h : step s = .next t) :
    MovesTo (nextPhase u s) (s.ctl u) (t.ctl u) := by
  have unchanged : nextPhase u s = s.phase u ∧ t.ctl u = s.ctl u → MovesTo (nextPhase u s) (s.ctl u) (t.ctl u) := by
    rintro ⟨hn, hctl⟩
    rw [hn, hctl]
    exact movesTo_same rfl rfl
  rcases turn_cases s with hreset | ⟨v, hv⟩ | ⟨ht, hc⟩
  · rw [hr] at hreset
    cases hreset
  · by_cases huv : u = v
    · exact step_movesTo_concerned (huv ▸ hv) h
    · exact unchanged (step_other_unit huv hv h)
  · exact unchanged (step_no_word u ht hc h)

/-- R15: after every step, reset or not, a unit is in the phase that the transition table gives. -/
theorem step_phase {s t : State} (u : UnitId) (h : step s = .next t) : t.phase u = nextPhase u s := by
  cases hr : isReset s.turn with
  | true =>
    obtain ⟨hn, hp, _⟩ := step_reset u hr h
    rw [hp, hn]
  | false => exact (step_movesTo u hr h).phase

/-- Settles O33: each event moves the unit as the transition table says, and the flags are read off the phase. -/
theorem phasesFollowTheTransitionTable : Obligations.PhasesFollowTheTransitionTable := by
  intro s t u h
  refine ⟨step_phase u h, ?_⟩
  simp only [← step_phase u h, busy, doneFlag, flt, State.phase]
  cases (t.ctl u).ph <;> rfl

/-- Settles O34: a reset clears the cause, and every other step is a move that obeys R20. -/
theorem causeIsWrittenOnlyOnFaultEntryOrReset : Obligations.CauseIsWrittenOnlyOnFaultEntryOrReset := by
  intro s t u h
  refine ⟨fun hr => ?_, fun hr => (step_movesTo u hr h).entered, fun hr => (step_movesTo u hr h).kept⟩
  obtain ⟨_, _, hcause⟩ := step_reset u hr h
  exact hcause

/-! ### The status word -/

/-- R18: where the word's fields stand. -/
theorem statusWord_fields (c : Control) :
    (statusWord c).getLsbD 0 = busy c ∧ (statusWord c).getLsbD 1 = doneFlag c ∧ (statusWord c).getLsbD 2 = flt c ∧
    (statusWord c).extractLsb' 3 2 = c.fcause ∧
    (statusWord c).extractLsb' 0 3 = BitVec.ofBool (flt c) ++ BitVec.ofBool (doneFlag c) ++ BitVec.ofBool (busy c) := by
  unfold statusWord
  generalize c.fcause = cause, busy c = b, doneFlag c = d, flt c = f
  revert cause b d f
  decide

/-- Settles O35: the fields are the flags and the cause, and a unit is in one phase, so at most one flag is 1. -/
theorem statusWordShowsPhaseAndCause : Obligations.StatusWordShowsPhaseAndCause := by
  intro c
  obtain ⟨hbusy, hdone, hflt, hcause, hflags⟩ := statusWord_fields c
  refine ⟨?_, ?_, ?_, hcause, ?_⟩
  · rw [hbusy]
    exact beq_iff_eq
  · rw [hdone]
    exact beq_iff_eq
  · rw [hflt]
    exact beq_iff_eq
  · rw [hflags]
    simp only [busy, doneFlag, flt]
    cases c.ph <;> decide

/-- Settles O25, by evaluating the reset state. -/
theorem resetStateIsIdle : Obligations.ResetStateIsIdle := by
  unfold Obligations.ResetStateIsIdle
  decide

end Sys2Proof.Machine
end

section
/-! PROOFS. Command words as numbers (R45, R49 to R51), and what the host's turn does with them (R56, R137).

The decoder is read once, as an equation for each of its cases over the three fields of a word. Each field is a number read off the
word's own number, so the table of R49, the cases of R50 and the ranges of R51 come down to arithmetic. -/

namespace Sys2Proof.Machine

/-! ### The fields of a word -/

/-- R46: `u` is bit 10. -/
theorem unitField_toNat (w : CmdWord) : (unitField w).toNat = w.toNat / 1024 := by
  have := w.isLt
  simp only [unitField, BitVec.extractLsb'_toNat, Nat.shiftRight_eq_div_pow]
  omega

/-- R46: `op` is bits 9 and 8. -/
theorem opField_toNat (w : CmdWord) : (opField w).toNat = w.toNat / 256 % 4 := by
  simp only [opField, BitVec.extractLsb'_toNat, Nat.shiftRight_eq_div_pow, Nat.reducePow]

/-- R46: `data` is bits 7 to 0. -/
theorem dataField_toNat (w : CmdWord) : (dataField w).toNat = w.toNat % 256 := by
  simp only [dataField, BitVec.extractLsb'_toNat, Nat.shiftRight_zero, Nat.reducePow]

/-- R45: `cmd = u * 1024 + op * 256 + data`. -/
theorem toNat_eq_fields (w : CmdWord) :
    w.toNat = (unitField w).toNat * 1024 + (opField w).toNat * 256 + (dataField w).toNat := by
  rw [unitField_toNat, opField_toNat, dataField_toNat]
  omega

theorem opField_eq_iff (w : CmdWord) (op : BitVec 2) : opField w = op ↔ w.toNat / 256 % 4 = op.toNat := by
  rw [BitVec.toNat_eq, opField_toNat]

theorem dataField_eq_iff (w : CmdWord) (b : Byte) : dataField w = b ↔ w.toNat % 256 = b.toNat := by
  rw [BitVec.toNat_eq, dataField_toNat]

/-- The unit of a word and its unit field say the same. -/
theorem unitField_eq_unitCode (w : CmdWord) : unitField w = unitCode (unitOf w) := by
  unfold unitOf
  generalize unitField w = u
  revert u
  decide

@[simp] theorem unitCode_inj {u v : UnitId} : unitCode u = unitCode v ↔ u = v := by cases u <;> cases v <;> decide

theorem unitOf_eq_iff (w : CmdWord) (u : UnitId) : unitOf w = u ↔ w.toNat / 1024 = (unitCode u).toNat := by
  rw [← unitField_toNat, unitField_eq_unitCode, ← BitVec.toNat_eq, unitCode_inj]

/-- R50: the unit as a number. -/
theorem unitOf_eq_ite_toNat (w : CmdWord) : unitOf w = if w.toNat / 1024 = 1 then .u32 else .u16 := by
  have := w.isLt
  split <;> rw [unitOf_eq_iff] <;> simp only [unitCode, BitVec.reduceToNat] <;> omega

/-- R50: the unit as bit 10. -/
theorem unitOf_eq_ite_bit (w : CmdWord) : unitOf w = if w.getLsbD 10 then .u32 else .u16 := by
  have hbit : w.getLsbD 10 = true ↔ w.toNat / 1024 = 1 := by
    have := w.isLt
    rw [← BitVec.testBit_toNat, Nat.testBit_eq_decide_div_mod_eq, decide_eq_true_iff]
    omega
  simp only [unitOf_eq_ite_toNat, hbit]

/-- Two words with the same fields are one word. -/
theorem word_eq_iff_fields {v w : CmdWord} :
    v = w ↔ unitField v = unitField w ∧ opField v = opField w ∧ dataField v = dataField w := by
  refine ⟨fun h => h ▸ ⟨rfl, rfl, rfl⟩, fun ⟨hunit, hop, hdata⟩ => BitVec.eq_of_toNat_eq ?_⟩
  rw [toNat_eq_fields v, toNat_eq_fields w, hunit, hop, hdata]

/-! ### The word of an instruction -/

/-- The per-instruction facts, for any instruction. -/
theorem encodedFields (i : Instr) : Laws.EncodedFields.Statement i :=
  match i with
  | .start16 => Laws.EncodedFields.start16
  | .byte16 b => Laws.EncodedFields.byte16 b
  | .finish16 => Laws.EncodedFields.finish16
  | .start32 => Laws.EncodedFields.start32
  | .byte32 b => Laws.EncodedFields.byte32 b
  | .finish32 => Laws.EncodedFields.finish32

/-- R45 for the word of an instruction: the codes of its unit and operation, and its byte. -/
theorem encode_toNat (i : Instr) :
    (encode i).toNat = (unitCode i.unit).toNat * 1024 + (opCode i.op).toNat * 256 + i.data.toNat := by
  obtain ⟨hunit, hop, hdata, _, _⟩ := encodedFields i
  rw [toNat_eq_fields, unitField_eq_unitCode, hunit, hop, hdata]

/-- Settles O4: a word's number is put together from its fields, and the fields of an encoded instruction are its codes and its byte. -/
theorem wordIsItsFieldsAsNumber : Obligations.WordIsItsFieldsAsNumber :=
  ⟨toNat_eq_fields, encode_toNat⟩

/-! ### The cases of the decoder (R50) -/

theorem decode_start {w : CmdWord} (hop : opField w = 1#2) (hdata : dataField w = 0#8) :
    decode w = .legal (instrOf (unitOf w) .start 0#8) := by
  simp [decode, hop, hdata]

theorem decode_byte {w : CmdWord} (hop : opField w = 2#2) : decode w = .legal (instrOf (unitOf w) .byte (dataField w)) := by
  simp [decode, hop]

theorem decode_finish {w : CmdWord} (hop : opField w = 3#2) (hdata : dataField w = 0#8) :
    decode w = .legal (instrOf (unitOf w) .finish 0#8) := by
  simp [decode, hop, hdata]

/-- R51's three classes: `op` 0, and START or FINISH with nonzero `data`. -/
def HasReservedFields (w : CmdWord) : Prop :=
  opField w = 0#2 ∨ (opField w = 1#2 ∧ dataField w ≠ 0#8) ∨ (opField w = 3#2 ∧ dataField w ≠ 0#8)

theorem decode_reserved {w : CmdWord} (h : HasReservedFields w) : ∃ k, decode w = .reserved (unitOf w) k := by
  rcases h with hop | ⟨hop, hdata⟩ | ⟨hop, hdata⟩
  · exact ⟨.opZero, by simp [decode, hop]⟩
  · exact ⟨.startWithData, by simp [decode, hop, hdata]⟩
  · exact ⟨.finishWithData, by simp [decode, hop, hdata]⟩

/-! ### A word and its instruction -/

/-- The fields of a word are those of the instruction `i`. -/
def HasFieldsOf (i : Instr) (w : CmdWord) : Prop :=
  unitOf w = i.unit ∧ opField w = opCode i.op ∧ dataField w = i.data

/-- A word with the fields of `i` decodes to `i`. -/
theorem decode_of_fields {i : Instr} {w : CmdWord} (h : HasFieldsOf i w) : decode w = .legal i := by
  obtain ⟨hunit, hop, hdata⟩ := h
  cases i with
  | start16 | start32 =>
    rw [decode_start hop hdata, hunit]
    rfl
  | byte16 b | byte32 b =>
    rw [decode_byte hop, hunit, hdata]
    rfl
  | finish16 | finish32 =>
    rw [decode_finish hop hdata, hunit]
    rfl

@[simp] theorem instrOf_unit (u : UnitId) (op : Op) (b : Byte) : (instrOf u op b).unit = u := by cases u <;> cases op <;> rfl

@[simp] theorem instrOf_op (u : UnitId) (op : Op) (b : Byte) : (instrOf u op b).op = op := by cases u <;> cases op <;> rfl

@[simp] theorem instrOf_data (u : UnitId) (op : Op) (b : Byte) : (instrOf u op b).data = if op = .byte then b else 0#8 := by
  cases u <;> cases op <;> rfl

/-- The four values of `op`, of which three are operations (R47). -/
theorem opField_cases (w : CmdWord) : opField w = 0#2 ∨ opField w = 1#2 ∨ opField w = 2#2 ∨ opField w = 3#2 := by
  generalize opField w = op
  revert op
  decide

/-- R50: every word has the fields of an instruction or those of a reserved word. -/
theorem fields_cases (w : CmdWord) : (∃ i, HasFieldsOf i w) ∨ HasReservedFields w := by
  rcases opField_cases w with hop | hop | hop | hop
  · exact .inr (.inl hop)
  · by_cases hdata : dataField w = 0#8
    · exact .inl ⟨instrOf (unitOf w) .start 0#8, by simp [HasFieldsOf, opCode, hop, hdata]⟩
    · exact .inr (.inr (.inl ⟨hop, hdata⟩))
  · exact .inl ⟨instrOf (unitOf w) .byte (dataField w), by simp [HasFieldsOf, opCode, hop]⟩
  · by_cases hdata : dataField w = 0#8
    · exact .inl ⟨instrOf (unitOf w) .finish 0#8, by simp [HasFieldsOf, opCode, hop, hdata]⟩
    · exact .inr (.inr (.inr ⟨hop, hdata⟩))

theorem decode_legal_iff_fields {w : CmdWord} {i : Instr} : decode w = .legal i ↔ HasFieldsOf i w := by
  refine ⟨fun h => ?_, decode_of_fields⟩
  rcases fields_cases w with ⟨j, hj⟩ | hr
  · rw [decode_of_fields hj] at h
    cases h
    exact hj
  · obtain ⟨k, hk⟩ := decode_reserved hr
    rw [hk] at h
    cases h

theorem decode_reserved_iff_fields {w : CmdWord} : (∃ u k, decode w = .reserved u k) ↔ HasReservedFields w := by
  refine ⟨fun ⟨u, k, h⟩ => ?_, fun h => ⟨unitOf w, decode_reserved h⟩⟩
  rcases fields_cases w with ⟨j, hj⟩ | hr
  · rw [decode_of_fields hj] at h
    cases h
  · exact hr

/-- The decoder inverts the encoder. -/
theorem decode_legal_iff_encode {w : CmdWord} {i : Instr} : decode w = .legal i ↔ w = encode i := by
  obtain ⟨hunit, hop, hdata, _, _⟩ := encodedFields i
  rw [decode_legal_iff_fields, HasFieldsOf, word_eq_iff_fields, unitField_eq_unitCode, unitField_eq_unitCode (encode i), hunit, hop,
    hdata, unitCode_inj]

theorem decode_legal_iff_toNat {w : CmdWord} {i : Instr} :
    decode w = .legal i ↔ w.toNat = (unitCode i.unit).toNat * 1024 + (opCode i.op).toNat * 256 + i.data.toNat := by
  rw [decode_legal_iff_encode, BitVec.toNat_eq, encode_toNat]

/-- R51's three classes, read off the word as a number. -/
theorem hasReservedFields_iff_toNat {w : CmdWord} : HasReservedFields w ↔
    w.toNat / 256 % 4 = 0 ∨ (w.toNat / 256 % 4 = 1 ∧ w.toNat % 256 ≠ 0) ∨ (w.toNat / 256 % 4 = 3 ∧ w.toNat % 256 ≠ 0) := by
  simp only [HasReservedFields, ne_eq, opField_eq_iff, dataField_eq_iff, BitVec.reduceToNat]

/-- Settles O3: each case of the decoder, its field tests read as numbers. -/
theorem decodeReadsFieldsAsNumbers : Obligations.DecodeReadsFieldsAsNumbers := by
  intro w
  simp only [← unitOf_eq_ite_toNat]
  refine ⟨fun ⟨hop, hdata⟩ => ?_, fun hop => ?_, fun ⟨hop, hdata⟩ => ?_, fun h => ?_⟩
  · exact decode_start ((opField_eq_iff w _).2 hop) ((dataField_eq_iff w _).2 hdata)
  · rw [decode_byte ((opField_eq_iff w _).2 hop), ← dataField_toNat, BitVec.ofNat_toNat, BitVec.setWidth_eq]
  · exact decode_finish ((opField_eq_iff w _).2 hop) ((dataField_eq_iff w _).2 hdata)
  · exact decode_reserved (hasReservedFields_iff_toNat.2 h)

/-! ### The command table (R49) -/

/-- The mask of START and FINISH keeps the whole word. -/
theorem and_wholeWord (w : CmdWord) : w &&& 0x7FF#11 = w := BitVec.and_allOnes

/-- The mask of BYTE keeps the unit and the operation and clears the byte. -/
theorem and_byteMask_fields (w : CmdWord) :
    unitField (w &&& 0x700#11) = unitField w ∧ opField (w &&& 0x700#11) = opField w ∧ dataField (w &&& 0x700#11) = 0#8 := by
  simp only [unitField, opField, dataField, BitVec.extractLsb'_and]
  exact ⟨BitVec.and_allOnes, BitVec.and_allOnes, BitVec.and_zero⟩

/-- So a word behind that mask is the match of BYTE exactly when its unit is the row's and its operation is BYTE. -/
theorem byteMask_selects (w : CmdWord) (u : UnitId) :
    w &&& 0x700#11 = encode (instrOf u .byte 0#8) ↔ unitOf w = u ∧ opField w = 2#2 := by
  obtain ⟨hmUnit, hmOp, hmData⟩ := and_byteMask_fields w
  obtain ⟨hunit, hop, hdata, _, _⟩ := encodedFields (instrOf u .byte 0#8)
  rw [word_eq_iff_fields, hmUnit, hmOp, hmData, hop, hdata, unitField_eq_unitCode, unitField_eq_unitCode, hunit, unitCode_inj]
  simp [opCode]

theorem exists_decode_byte_iff (w : CmdWord) (u : UnitId) :
    (∃ b, decode w = .legal (instrOf u .byte b)) ↔ w &&& 0x700#11 = encode (instrOf u .byte 0#8) := by
  simp [byteMask_selects, decode_legal_iff_fields, HasFieldsOf, opCode]

/-- Two rows that ask for different bits where both masks look select no word in common. -/
theorem rowSelects_disjoint {a b : PatternRow} (h : a.pattern &&& b.mask ≠ b.pattern &&& a.mask) (w : CmdWord) :
    (rowSelects a w && rowSelects b w) = false := by
  rw [Bool.eq_false_iff, Ne, Bool.and_eq_true, rowSelects, rowSelects, beq_iff_eq, beq_iff_eq]
  rintro ⟨ha, hb⟩
  rw [← ha, ← hb, BitVec.and_assoc, BitVec.and_assoc, BitVec.and_comm a.mask] at h
  exact h rfl

/-- The rows of R49 disagree in pairs. -/
theorem commandTable_disjoint :
    commandTable.Pairwise fun a b => ∀ w : CmdWord, (rowSelects a w && rowSelects b w) = false :=
  (by decide : commandTable.Pairwise fun a b => a.pattern &&& b.mask ≠ b.pattern &&& a.mask).imp rowSelects_disjoint

/-- R49: the legal words as numbers, the four single words first. -/
def legalNumbers : Finset Nat :=
  {0x100, 0x300, 0x500, 0x700} ∪ (Finset.Ico 0x200 0x300 ∪ Finset.Ico 0x600 0x700)

theorem mem_legalNumbers {n : Nat} : n ∈ legalNumbers ↔
    n = 0x100 ∨ n = 0x300 ∨ n = 0x500 ∨ n = 0x700 ∨ (0x200 ≤ n ∧ n < 0x300) ∨ (0x600 ≤ n ∧ n < 0x700) := by
  simp only [legalNumbers, Finset.mem_union, Finset.mem_insert, Finset.mem_singleton, Finset.mem_Ico, or_assoc]

/-- R49: 2 + 256 + 2 + 256. -/
theorem card_legalNumbers : legalNumbers.card = 516 := by
  have hdisjBytes : Disjoint (Finset.Ico 0x200 0x300) (Finset.Ico 0x600 0x700) := by
    rw [Finset.disjoint_left]
    simp only [Finset.mem_Ico]
    omega
  have hdisj : Disjoint {0x100, 0x300, 0x500, 0x700} (Finset.Ico 0x200 0x300 ∪ Finset.Ico 0x600 0x700) := by
    rw [Finset.disjoint_left]
    simp
  have hbytes : (Finset.Ico 0x200 0x300 ∪ Finset.Ico 0x600 0x700).card = 512 := by
    rw [Finset.card_union_of_disjoint hdisjBytes, Nat.card_Ico, Nat.card_Ico]
  have hothers : ({0x100, 0x300, 0x500, 0x700} : Finset Nat).card = 4 := by decide
  rw [legalNumbers, Finset.card_union_of_disjoint hdisj, hbytes, hothers]

/-- A word is legal exactly when its number is one of these. -/
theorem opOf_decode_isSome_iff (w : CmdWord) : (opOf (decode w)).isSome = true ↔ w.toNat ∈ legalNumbers := by
  have := w.isLt
  have hlegal : (opOf (decode w)).isSome = true ↔ ¬HasReservedFields w := by
    rw [← decode_reserved_iff_fields]
    cases decode w <;> simp [opOf]
  rw [hlegal, hasReservedFields_iff_toNat, mem_legalNumbers]
  omega

/-- R49: as many of the 2048 words are legal. -/
theorem legalWords_count : ((List.range 2048).filter fun n => (opOf (decode (BitVec.ofNat 11 n))).isSome).length = 516 := by
  have hset : (Finset.range 2048).filter (fun n => (opOf (decode (BitVec.ofNat 11 n))).isSome = true) = legalNumbers := by
    ext n
    rw [Finset.mem_filter, Finset.mem_range, opOf_decode_isSome_iff, BitVec.toNat_ofNat, mem_legalNumbers, mem_legalNumbers]
    omega
  have hcount := Nat.count_eq_card_filter_range (fun n => (opOf (decode (BitVec.ofNat 11 n))).isSome = true) 2048
  rw [hset, card_legalNumbers, Nat.count, List.countP_eq_length_filter] at hcount
  simpa only [Bool.decide_eq_true] using hcount

/-- Where a function answers on `k` elements of a list, it does not on the others. -/
theorem length_filter_isNone {α β : Type} {f : α → Option β} {l : List α} {k : Nat} (h : (l.filter fun x => (f x).isSome).length = k) :
    (l.filter fun x => (f x).isNone).length = l.length - k := by
  simp only [← Option.not_isSome]
  rw [← h, List.length_eq_length_filter_add (l := l) fun x => (f x).isSome, Nat.add_sub_cancel_left]

/-- R49: the other 1532 are reserved. -/
theorem reservedWords_count : ((List.range 2048).filter fun n => (opOf (decode (BitVec.ofNat 11 n))).isNone).length = 1532 := by
  rw [length_filter_isNone legalWords_count, List.length_range]

/-- Settles O2: START and FINISH are single words, BYTE is what its mask leaves of a word, and the counts are those of the table's numbers. -/
theorem commandTableSelectsWords : Obligations.CommandTableSelectsWords := by
  refine ⟨fun w => ?_, commandTable_disjoint, legalWords_count, reservedWords_count⟩
  simp only [and_wholeWord]
  refine ⟨decode_legal_iff_encode, exists_decode_byte_iff w .u16, fun b => ?_, decode_legal_iff_encode, decode_legal_iff_encode,
    exists_decode_byte_iff w .u32, fun b => ?_, decode_legal_iff_encode⟩
  all_goals simp [decode_legal_iff_toNat, Instr.unit, Instr.op, Instr.data, unitCode, opCode]

/-! ### The host's turn (R56) -/

theorem step_command_cons {s : State} {w : CmdWord} {rest : List CmdWord} (ht : s.turn = .command) (hp : s.port = w :: rest) :
    step s = if s.phase (unitOf w) = .shift then .next s.advance else perform (decode w) { s.advance with port := rest } := by
  rw [step_of_turn ht, takeTurn, commandTurn_cons (s := s.advance) hp, advance_phase]

theorem cmdAccept_iff (s : State) : cmdAccept s = true ↔ ∃ w rest, s.port = w :: rest ∧ s.phase (unitOf w) ≠ .shift := by
  constructor
  · intro h
    cases hp : s.port with
    | nil => simp [cmdAccept, cmd, hp] at h
    | cons w rest => exact ⟨w, rest, rfl, (cmdAccept_cons hp).1 h⟩
  · rintro ⟨w, rest, hp, hs⟩
    exact (cmdAccept_cons hp).2 hs

/-- Settles O9: with no word on the port, or one for a unit in SHIFT, the turn passes; any other word is taken and performed. -/
theorem busyUnitHoldsThePort : Obligations.BusyUnitHoldsThePort := by
  refine fun s => ⟨cmdAccept_iff s, fun w rest ht hp hs => ?_, fun ht hacc => ?_⟩
  · rw [step_command_cons ht hp, if_neg hs]
  · cases hp : s.port with
    | nil => rw [step_of_turn ht, takeTurn, commandTurn, advance_port, hp]
    | cons w rest =>
      have hs : s.phase (unitOf w) = .shift := by
        by_contra hs
        rw [(cmdAccept_cons hp).2 hs] at hacc
        cases hacc
      rw [step_command_cons ht hp, if_pos hs]

/-! ### IllegalCommand (R51, R137) -/

theorem exists_decode_reserved_iff_ranges (w : CmdWord) : (∃ u k, decode w = .reserved u k) ↔
    (w.toNat ≤ 0x0FF ∨ (0x400 ≤ w.toNat ∧ w.toNat ≤ 0x4FF) ∨ (0x101 ≤ w.toNat ∧ w.toNat ≤ 0x1FF) ∨
      (0x501 ≤ w.toNat ∧ w.toNat ≤ 0x5FF) ∨ (0x301 ≤ w.toNat ∧ w.toNat ≤ 0x3FF) ∨ (0x701 ≤ w.toNat ∧ w.toNat ≤ 0x7FF)) := by
  have := w.isLt
  rw [decode_reserved_iff_fields, hasReservedFields_iff_toNat]
  omega

/-- R137: a reserved word is the fault entry in every phase that judges it. -/
theorem step_reserved {s : State} {w : CmdWord} {rest : List CmdWord} {u : UnitId} {k : ReservedKind} (hd : decode w = .reserved u k)
    (ht : s.turn = .command) (hp : s.port = w :: rest) (hs : s.phase u = .idle ∨ s.phase u = .active ∨ s.phase u = .done) :
    step s = .next (raiseFault u .illegalCommand { s.advance with port := rest }) := by
  have hjudged : s.phase u ≠ .shift ∧ s.phase u ≠ .fault := by rcases hs with h | h | h <;> simp [h]
  obtain ⟨hshift, hfault⟩ := hjudged
  rw [step_command_cons ht hp, ← decode_reserved_unit hd, if_neg hshift, hd, perform, acceptReserved,
    acceptAt_judges (by simpa using hshift) (by simpa using hfault)]

theorem microOp_fcause (i : Instr) (s : State) (u : UnitId) : ((microOp i s).ctl u).fcause = (s.ctl u).fcause := by
  cases u <;> cases i <;> rfl

/-- The only cause a command writes is ProtocolError's, on its own unit. -/
theorem exec_fcause {i : Instr} {s t : State} (u : UnitId) (h : exec i s = .next t) :
    (t.ctl u).fcause = (s.ctl u).fcause ∨ (t.ctl u).fcause = causeCode .protocolError := by
  rcases exec_cases i s with ⟨_, e⟩ | ⟨_, _, _, e⟩ | ⟨_, _, _, e⟩ <;> rw [e] at h <;> cases h
  · exact .inl rfl
  · exact .inl (microOp_fcause i s u)
  · by_cases hu : u = i.unit
    · subst hu
      exact .inr (by rw [raiseFault, setCtl_ctl_same])
    · exact .inl (by rw [raiseFault, setCtl_ctl_other _ _ _ _ hu])

/-- In the host's turn a legal word keeps the cause or writes ProtocolError's. -/
theorem step_legal_fcause {s t : State} {w : CmdWord} {rest : List CmdWord} {i : Instr} (u : UnitId) (hd : decode w = .legal i)
    (ht : s.turn = .command) (hp : s.port = w :: rest) (h : step s = .next t) :
    (t.ctl u).fcause = (s.ctl u).fcause ∨ (t.ctl u).fcause = causeCode .protocolError := by
  rw [step_command_cons ht hp] at h
  split at h
  · cases h
    exact .inl (by rw [advance_ctl])
  · rw [hd, perform] at h
    simpa using exec_fcause u h

/-- Settles O5: the ranges are R51's three classes for both units, a reserved word is the fault entry of R138, and a legal word writes no
cause but ProtocolError's. -/
theorem reservedWordRaisesIllegalCommand : Obligations.ReservedWordRaisesIllegalCommand := by
  refine ⟨exists_decode_reserved_iff_ranges, fun w rest u k s hd ht hp => ⟨?_, ?_, ?_⟩, fun w rest i s t u hd ht hp h hne => ?_⟩
  · rw [decode_reserved_unit hd, unitOf_eq_ite_bit]
  · rintro rfl hs
    exact step_reserved hd ht hp hs
  · rintro rfl hs
    exact step_reserved hd ht hp hs
  · rcases step_legal_fcause u hd ht hp h with hc | hc <;> rw [hc]
    · exact hne
    · decide

end Sys2Proof.Machine
end

section
/-! PROOFS. The division step bit by bit (R60).

One equation for a bit of the step serves both widths and every bit. At the top nothing is shifted in, and the polynomial's own top
bit is 1, so the bit tested comes back there. -/

namespace Sys2Proof.Machine

/-- R60: a bit of the step is the next higher bit of the value, with the polynomial's bit fed back when bit 0 was 1. -/
theorem getLsbD_divStep {w : Nat} (v : Config.Variant w) (x : BitVec w) (i : Nat) :
    (divStep v x).getLsbD i = (x.getLsbD (i + 1) ^^ (x.getLsbD 0 && v.poly.getLsbD i)) := by
  have hshift : (x >>> 1).getLsbD i = x.getLsbD (i + 1) := by
    rw [BitVec.getLsbD_ushiftRight, Nat.add_comm]
  cases hlow : x.getLsbD 0 with
  | false => simp [divStep, hlow, hshift]
  | true => simp [divStep, hlow, hshift]

/-- R60: the bit tested comes back at the top, where a polynomial of full degree has a 1. -/
theorem getLsbD_divStep_top {w : Nat} {v : Config.Variant (w + 1)} (htop : v.poly.getLsbD w = true) (x : BitVec (w + 1)) :
    (divStep v x).getLsbD w = x.getLsbD 0 := by
  rw [getLsbD_divStep, htop, BitVec.getLsbD_of_ge x (w + 1) le_rfl, Bool.false_xor, Bool.and_true]

/-- Settles O40: the equations are the definition at each unit's constants, and the bits are those of any step with a polynomial whose
top bit is 1. -/
theorem divisionStepBitByBit : Obligations.DivisionStepBitByBit :=
  ⟨fun x => ⟨rfl, fun i _ => getLsbD_divStep Config.arc x i, getLsbD_divStep_top (by decide) x⟩,
   fun x => ⟨rfl, fun i _ => getLsbD_divStep Config.isoHdlc x i, getLsbD_divStep_top (by decide) x⟩⟩

end Sys2Proof.Machine
end

section
/-! PROOFS. A command in each phase of its unit (R56, R139, R141), said once for all six: without effect, its micro-operation, or a
ProtocolError. -/

namespace Sys2Proof.Machine

/-- R56, R141: in SHIFT and in FAULT a command has no effect. -/
theorem exec_idles {i : Instr} {s : State} (h : s.phase i.unit = .shift ∨ s.phase i.unit = .fault) : exec i s = .next s := by
  rw [exec_eq_accept]
  exact acceptAt_idles h

/-- In every other phase it is judged, by that phase. -/
theorem exec_judged {i : Instr} {s : State} {p : Phase} (hp : s.phase i.unit = p) (hs : p ≠ .shift) (hf : p ≠ .fault) :
    exec i s = .next (if allowedFor i p then microOp i s else raiseFault i.unit .protocolError s) := by
  subst hp
  rw [exec_eq_accept, acceptCommand, acceptAt_judges hs hf]

/-- R139: a command is its micro-operation in a phase that allows it. -/
theorem exec_allowed {i : Instr} {s : State} {p : Phase} (hp : s.phase i.unit = p) (ha : allowedFor i p = true) :
    exec i s = .next (microOp i s) := by
  have hj : p ≠ .shift ∧ p ≠ .fault := by
    constructor <;> rintro rfl <;> cases i <;> cases ha
  obtain ⟨hs, hf⟩ := hj
  rw [exec_judged hp hs hf, if_pos ha]

/-- R139: it is a ProtocolError in a phase that judges it and does not allow it. -/
theorem exec_disallowed {i : Instr} {s : State} {p : Phase} (hp : s.phase i.unit = p) (hs : p ≠ .shift) (hf : p ≠ .fault)
    (ha : allowedFor i p = false) : exec i s = .next (raiseFault i.unit .protocolError s) := by
  rw [exec_judged hp hs hf, ha, if_neg Bool.false_ne_true]

/-- R56: in SHIFT a command is without effect, and the host's turn leaves its word on the port. -/
theorem exec_held {i : Instr} {s : State} {w : CmdWord} (hd : decode w = .legal i) (hs : s.phase i.unit = .shift) :
    exec i s = .next s ∧ ∀ rest, s.turn = .command → s.port = w :: rest → step s = .next s.advance := by
  refine ⟨exec_idles (.inl hs), fun rest ht hp => ?_⟩
  rw [decode_legal_unit hd] at hs
  rw [step_command_cons ht hp, if_pos hs]

end Sys2Proof.Machine
end

section
/-! PROOFS. Unit U16, the CRC-16/ARC divider (R75 to R79).

What a phase makes of a command is the same for every command, so what is left to a command of U16 is its word, and its
micro-operation in the spec's terms. U16's own turn has an equation for each of its cases. -/

namespace Sys2Proof.Machine

/-! ### The commands of U16 -/

/-- Settles O11: START16 is allowed in IDLE and DONE, and its micro-operation leaves all three flags 0. -/
theorem start16OpensTransaction : Obligations.Start16OpensTransaction := by
  intro s
  have hword : decode 0x100#11 = .legal .start16 := by decide
  refine ⟨hword, fun h => ⟨init16 s, ?_, rfl, rfl, rfl, rfl⟩, fun h => exec_disallowed h nofun nofun rfl,
    fun h => exec_idles (.inr h), exec_held hword⟩
  exact h.elim (exec_allowed · rfl) (exec_allowed · rfl)

/-- R49: the words of BYTE16 are 0x200 + b. -/
theorem decode_byte16Word (b : Byte) : decode (0x200#11 + b.setWidth 11) = .legal (.byte16 b) := by
  have := b.isLt
  simp [decode_legal_iff_toNat, Instr.unit, Instr.op, Instr.data, unitCode, opCode]
  omega

/-- R48: a zero-extended byte is at most 0x00FF. -/
theorem zext16_le (b : Byte) : (zext16 b).toNat ≤ 0x00FF := by
  have := b.isLt
  simp only [zext16, BitVec.toNat_setWidth]
  omega

/-- R76: `crc[7:0]` is `crc AND 0xFF`. -/
theorem zext16_lowByte (c : Word16) : zext16 (lowByte c) = c &&& 0x00FF#16 := by
  have hmask : c.toNat &&& 0xFF = c.toNat % 256 := Nat.and_two_pow_sub_one_eq_mod c.toNat 8
  apply BitVec.eq_of_toNat_eq
  simp only [zext16, lowByte, BitVec.toNat_setWidth, BitVec.extractLsb'_toNat, BitVec.toNat_and, BitVec.reduceToNat, hmask,
    Nat.shiftRight_zero, Nat.reducePow]
  omega

/-- R76: the working value is `(crc AND 0xFF) XOR b`. -/
theorem zext16_lowByte_xor (c : Word16) (b : Byte) : zext16 (lowByte c ^^^ b) = (c &&& 0x00FF#16) ^^^ b.setWidth 16 := by
  rw [← zext16_lowByte]
  exact BitVec.setWidth_xor

/-- Settles O12: BYTE16 is allowed in ACTIVE only, and the working value is one zero-extended byte. -/
theorem byte16LoadsWorkingValue : Obligations.Byte16LoadsWorkingValue := by
  intro b s
  have hword := decode_byte16Word b
  refine ⟨hword, fun h => ⟨load16 b s, exec_allowed h rfl, ?_, zext16_le _, rfl⟩, fun h => ?_,
    fun h => exec_idles (.inr h), exec_held hword⟩
  · rw [← zext16_lowByte_xor]
    rfl
  · exact h.elim (exec_disallowed · nofun nofun rfl) (exec_disallowed · nofun nofun rfl)

/-- R66: the final XOR of U16 is with 0x0000. -/
theorem xor_arc_xorout (c : Word16) : c ^^^ Config.arc.xorout = c := BitVec.xor_zero

/-- Settles O13: FINISH16 is allowed in ACTIVE only, and its final XOR leaves the register that the port then shows. -/
theorem finish16PublishesRegister : Obligations.Finish16PublishesRegister := by
  intro s
  have hword : decode 0x300#11 = .legal .finish16 := by decide
  have hfinal : final16 s = { s with u16 := { s.u16 with ph := .done } } := by
    rw [final16, xor_arc_xorout]
  refine ⟨hword, fun h => ⟨final16 s, exec_allowed h rfl, hfinal, rfl, ?_⟩, fun h => ?_,
    fun h => exec_idles (.inr h), exec_held hword⟩
  · rw [hfinal]
    rfl
  · exact h.elim (exec_disallowed · nofun nofun rfl) (exec_disallowed · nofun nofun rfl)

/-! ### U16's own turn -/

/-- R78, R79: outside SHIFT the turn passes. -/
theorem step_own16_quiet {s : State} (ht : s.turn = .own .u16) (hp : s.u16.ph ≠ .shift) : step s = .next s.advance := by
  rw [step_of_turn ht]
  exact if_neg hp

/-- R78: in SHIFT with `cnt` above 0 it is BITSTEP16. -/
theorem step_own16_bitStep {s : State} (ht : s.turn = .own .u16) (hp : s.u16.ph = .shift) (hc : s.u16.cnt ≠ 0#4) :
    step s = .next (bitStep16 s.advance) := by
  rw [step_of_turn ht]
  exact (if_pos hp).trans (if_neg hc)

/-- R79: in SHIFT with `cnt` 0 it is FOLD16. -/
theorem step_own16_foldStep {s : State} (ht : s.turn = .own .u16) (hp : s.u16.ph = .shift) (hc : s.u16.cnt = 0#4) :
    step s = .next (foldStep16 s.advance) := by
  rw [step_of_turn ht]
  exact (if_pos hp).trans (if_pos hc)

/-- Settles O14: BITSTEP16 is one division step on `wrk`, and a counter above 0 is lowered without a borrow. -/
theorem bitStep16DividesWorkingValue : Obligations.BitStep16DividesWorkingValue :=
  fun s ht => ⟨fun hp hc => ⟨bitStep16 s.advance, step_own16_bitStep ht hp hc, rfl, cnt_pred hc⟩, step_own16_quiet ht⟩

/-- R79: the bits that FOLD16 brings down, none of them from above bit 15. -/
theorem getLsbD_highByteDown (c : Word16) (k : Nat) : (highByteDown c).getLsbD k = c.getLsbD (k + 8) := by
  rw [highByteDown, BitVec.getLsbD_ushiftRight, Nat.add_comm]

/-- The upper byte of `crc >> 8` is 0. -/
theorem getLsbD_highByteDown_of_ge (c : Word16) {k : Nat} (hk : 8 ≤ k) : (highByteDown c).getLsbD k = false := by
  rw [getLsbD_highByteDown, BitVec.getLsbD_of_ge c _ (by omega)]

/-- Settles O15: FOLD16's XOR meets zeros in its upper byte and the old upper byte in its lower, and neither BITSTEP16 nor a turn that
passes writes `crc` or `ph`. -/
theorem fold16EndsTheFold : Obligations.Fold16EndsTheFold := by
  refine fun s ht => ⟨fun hp hc => ⟨foldStep16 s.advance, step_own16_foldStep ht hp hc, rfl, rfl, fun k hk _ => ?_, fun k _ => ?_⟩,
    fun h => ?_⟩
  · rw [foldStep16_u16, advance_u16, BitVec.getLsbD_xor, getLsbD_highByteDown_of_ge _ hk, Bool.false_xor]
  · rw [foldStep16_u16, advance_u16, BitVec.getLsbD_xor, getLsbD_highByteDown, Bool.xor_comm]
  · by_cases hp : s.u16.ph = .shift
    · have hc : s.u16.cnt ≠ 0#4 := h.resolve_left (absurd hp)
      exact ⟨bitStep16 s.advance, step_own16_bitStep ht hp hc, rfl, rfl⟩
    · exact ⟨s.advance, step_own16_quiet ht hp, rfl, rfl⟩

end Sys2Proof.Machine
end

section
/-! PROOFS. Unit U32, the CRC-32/ISO-HDLC divider (R95 to R98).

As for U16, what is left to a command is its word, and its micro-operation in the spec's terms: which bits of `crc` the byte of
BYTE32 reaches, and the three forms of FINISH32's inversion. -/

namespace Sys2Proof.Machine

/-! ### The commands of U32 -/

/-- Settles O16: START32 is allowed in IDLE and DONE, and its micro-operation leaves all three flags 0. -/
theorem start32OpensTransaction : Obligations.Start32OpensTransaction := by
  intro s
  have hword : decode 0x500#11 = .legal .start32 := by decide
  refine ⟨hword, fun h => ⟨init32 s, ?_, rfl, rfl, rfl, rfl⟩, fun h => exec_disallowed h nofun nofun rfl,
    fun h => exec_idles (.inr h), exec_held hword⟩
  exact h.elim (exec_allowed · rfl) (exec_allowed · rfl)

/-- R49: the words of BYTE32 are 0x600 + b. -/
theorem decode_byte32Word (b : Byte) : decode (0x600#11 + b.setWidth 11) = .legal (.byte32 b) := by
  have hb := b.isLt
  rw [decode_legal_iff_toNat, BitVec.toNat_add, BitVec.toNat_setWidth]
  change (0x600 + b.toNat % 2 ^ 11) % 2 ^ 11 = 1 * 1024 + 2 * 256 + b.toNat
  omega

/-- R96: bits 31:8 of a register are unchanged by the XOR with a zero-extended byte. -/
theorem getLsbD_xor_zext32_of_ge (c : Word32) (b : Byte) {k : Nat} (hk : 8 ≤ k) :
    (c ^^^ zext32 b).getLsbD k = c.getLsbD k := by
  rw [BitVec.getLsbD_xor, zext32, BitVec.getLsbD_setWidth, BitVec.getLsbD_of_ge b k hk, Bool.and_false, Bool.xor_false]

/-- R96: its bits 7:0 meet the bits of the byte. -/
theorem getLsbD_xor_zext32_of_lt (c : Word32) (b : Byte) {k : Nat} (hk : k < 8) :
    (c ^^^ zext32 b).getLsbD k = (c.getLsbD k ^^ b.getLsbD k) := by
  have hwidth : decide (k < 32) = true := decide_eq_true (hk.trans (by decide))
  rw [BitVec.getLsbD_xor, zext32, BitVec.getLsbD_setWidth, hwidth, Bool.true_and]

/-- Settles O17: BYTE32 is allowed in ACTIVE only, and the byte it XORs in has zeros above bit 7. -/
theorem byte32XorsByteIntoRegister : Obligations.Byte32XorsByteIntoRegister := by
  intro b s
  have hword := decode_byte32Word b
  refine ⟨hword, fun h => ⟨load32 b s, exec_allowed h rfl, rfl, fun _ => getLsbD_xor_zext32_of_ge _ b,
    fun _ => getLsbD_xor_zext32_of_lt _ b, rfl⟩, fun h => ?_, fun h => exec_idles (.inr h), exec_held hword⟩
  exact h.elim (exec_disallowed · nofun nofun rfl) (exec_disallowed · nofun nofun rfl)

/-- R65: the complement is the XOR with all ones. -/
theorem not_eq_xor_ones32 (c : Word32) : ~~~c = c ^^^ 0xFFFFFFFF#32 := BitVec.xor_allOnes.symm

/-- Settles O18: FINISH32 is allowed in ACTIVE only, and the complement it leaves in `crc` and on the port is R65's other two forms. -/
theorem finish32PublishesInversion : Obligations.Finish32PublishesInversion := by
  intro s
  have hword : decode 0x700#11 = .legal .finish32 := by decide
  refine ⟨hword, fun h => ⟨final32 s, exec_allowed h rfl, rfl, not_eq_xor_ones32 _, BitVec.toNat_not, rfl, rfl⟩, fun h => ?_,
    fun h => exec_idles (.inr h), exec_held hword⟩
  exact h.elim (exec_disallowed · nofun nofun rfl) (exec_disallowed · nofun nofun rfl)

/-! ### U32's own turn -/

/-- R98: outside SHIFT the turn passes. -/
theorem step_own32_quiet {s : State} (ht : s.turn = .own .u32) (hp : s.u32.ph ≠ .shift) : step s = .next s.advance := by
  rw [step_of_turn ht]
  exact if_neg hp

/-- R98: in SHIFT with `cnt` above 0 it is BITSTEP32. -/
theorem step_own32_bitStep {s : State} (ht : s.turn = .own .u32) (hp : s.u32.ph = .shift) (hc : s.u32.cnt ≠ 0#4) :
    step s = .next (bitStep32 s.advance) := by
  rw [step_of_turn ht]
  exact (if_pos hp).trans (if_neg hc)

/-- R98: BITSTEP32 that finds `cnt` = 1 leaves SHIFT, so `busy` goes to 0. -/
theorem busy_bitStep32_last {s : State} (hc : s.u32.cnt = 1#4) : busy (bitStep32 s).u32.toControl = false := by
  rw [bitStep32_u32, busy, if_pos hc]
  rfl

/-- Settles O19: BITSTEP32 is one division step on `crc`, a counter above 0 is lowered without a borrow, and at `cnt` = 1 the fold ends. -/
theorem bitStep32DividesRegister : Obligations.BitStep32DividesRegister := by
  refine fun s ht => ⟨fun hp hc => ⟨bitStep32 s.advance, step_own32_bitStep ht hp hc, ?_, cnt_pred hc, busy_bitStep32_last⟩,
    step_own32_quiet ht⟩
  rw [bitStep32, advance_u32, hp]
  rfl

end Sys2Proof.Machine
end

section
/-! PROOFS. The empty message (R122): START then FINISH with no BYTE between them.

START leaves INIT in `crc` and FINISH publishes the final transform of `crc`, so what is published is the call-level function of no
bytes by its definition; the value is then that of the constants. -/

namespace Sys2Proof.Machine

/-- R19, R77: after FINAL16 the port shows the final transform of the register. -/
@[simp] theorem res16_final16 (s : State) : res16 (final16 s) = some (s.u16.crc ^^^ Config.arc.xorout) := rfl

/-- R19, R97: after FINAL32 the port shows the inversion of the register. -/
@[simp] theorem res32_final32 (s : State) : res32 (final32 s) = some (~~~s.u32.crc) := rfl

/-- R75: START16 is INIT16 in a phase that shows no open transaction. -/
theorem exec_start16_of_closed {s : State} (h : s.u16.ph = .idle ∨ s.u16.ph = .done) : exec .start16 s = .next (init16 s) :=
  exec_allowed rfl (allowsStart_iff.2 h)

/-- R95: so is START32 INIT32. -/
theorem exec_start32_of_closed {s : State} (h : s.u32.ph = .idle ∨ s.u32.ph = .done) : exec .start32 s = .next (init32 s) :=
  exec_allowed rfl (allowsStart_iff.2 h)

/-- R77: FINISH16 is FINAL16 with a transaction open. -/
theorem exec_finish16_of_active {s : State} (h : s.u16.ph = .active) : exec .finish16 s = .next (final16 s) :=
  exec_allowed h rfl

/-- R97: so is FINISH32 FINAL32. -/
theorem exec_finish32_of_active {s : State} (h : s.u32.ph = .active) : exec .finish32 s = .next (final32 s) :=
  exec_allowed h rfl

/-- R115: nothing is folded from no bytes, so only INIT and XOROUT meet. -/
theorem compute16_nil : compute16 [] = Config.arc.init ^^^ Config.arc.xorout := rfl

/-- R116: nothing is folded from no bytes, so INIT is inverted. -/
theorem compute32_nil : compute32 [] = ~~~Config.isoHdlc.init := rfl

theorem compute16_nil_eq_zero : compute16 [] = 0x0000#16 := by
  rw [compute16_nil, xor_arc_xorout]
  rfl

theorem compute32_nil_eq_zero : compute32 [] = 0x00000000#32 := by
  rw [compute32_nil]
  exact BitVec.not_allOnes

/-- R122: on U16, START then FINISH publishes what `compute16` makes of no bytes. -/
theorem res16_start_finish (s : State) : res16 (final16 (init16 s)) = some (compute16 []) := by
  rw [res16_final16, init16_u16, compute16_nil]

/-- R122: on U32, it publishes what `compute32` makes of no bytes. -/
theorem res32_start_finish (s : State) : res32 (final32 (init32 s)) = some (compute32 []) := by
  rw [res32_final32, init32_u32, compute32_nil]

/-- Settles O49: START opens a transaction in IDLE and DONE, and FINISH publishes the function of no bytes, which is 0. -/
theorem emptyMessagePublishesZero : Obligations.EmptyMessagePublishesZero := by
  refine ⟨compute16_nil_eq_zero, compute32_nil_eq_zero, fun s h => ?_, fun s h => ?_⟩
  · rw [← compute16_nil_eq_zero]
    exact ⟨init16 s, final16 (init16 s), exec_start16_of_closed h, exec_finish16_of_active rfl, res16_start_finish s⟩
  · rw [← compute32_nil_eq_zero]
    exact ⟨init32 s, final32 (init32 s), exec_start32_of_closed h, exec_finish32_of_active rfl, res32_start_finish s⟩

end Sys2Proof.Machine
end

section
/-! PROOFS. The command faults (R138 to R141): fault entry, the table of phases and commands, the order of the checks, and FAULT
kept until a reset.

Whether a command is a ProtocolError is one question about its operation and its unit's phase. The table of R139 and the checks of
R140 ask it in two forms; each is tied to `allowedFor`, by which the model decides it. -/

namespace Sys2Proof.Machine

/-! ### Fault entry (R138) -/

/-- R20: the code of a cause, as a case distinction. -/
theorem causeCode_eq_ite (c : Cause) : causeCode c = if c = .illegalCommand then 1#2 else 2#2 := by cases c <;> rfl

@[simp] theorem raiseFault_ctl_same (u : UnitId) (c : Cause) (s : State) :
    (raiseFault u c s).ctl u = { s.ctl u with ph := .fault, fcause := causeCode c } :=
  setCtl_ctl_same s u _

/-- R138: fault entry writes no data register of either unit, and leaves `cnt` of its own. -/
theorem raiseFault_keeps_data (u : UnitId) (c : Cause) (s : State) :
    (raiseFault u c s).u16.crc = s.u16.crc ∧ (raiseFault u c s).u16.wrk = s.u16.wrk ∧ (raiseFault u c s).u32.crc = s.u32.crc ∧
    ((raiseFault u c s).ctl u).cnt = (s.ctl u).cnt := by
  cases u <;> exact ⟨rfl, rfl, rfl, rfl⟩

/-- Settles O20: fault entry is a write of the two control registers, and the flags are read off the phase it writes. -/
theorem faultEntryWritesCauseAndPhase : Obligations.FaultEntryWritesCauseAndPhase := by
  intro cause s
  rw [← causeCode_eq_ite]
  refine ⟨rfl, rfl, fun u => ?_⟩
  rw [raiseFault_ctl_same]
  exact ⟨rfl, rfl, rfl⟩

/-! ### ProtocolError (R139) -/

/-- The six commands differ in the phases that allow them by their operation only. -/
theorem allowedFor_eq_ite (i : Instr) (p : Phase) :
    allowedFor i p = if i.op = .start then allowsStart p else allowsByteOrFinish p := by
  cases i <;> rfl

/-- R140: of the phases that judge a command, ACTIVE is the one that does not allow START, and the one that allows the others. -/
theorem allowedFor_eq_false_iff {i : Instr} {p : Phase} (hs : p ≠ .shift) (hf : p ≠ .fault) :
    allowedFor i p = false ↔ (i.op = .start ↔ p = .active) := by
  rw [allowedFor_eq_ite]
  cases p with
  | shift => exact absurd rfl hs
  | fault => exact absurd rfl hf
  | idle | active | done => by_cases hop : i.op = .start <;> simp [hop, allowsStart, allowsByteOrFinish]

/-- R139: the (phase, command) pairs that raise ProtocolError. -/
def ViolatesProtocol (op : Op) (p : Phase) : Prop :=
  (op = .start ∧ p = .active) ∨ (op ≠ .start ∧ (p = .idle ∨ p = .done))

/-- They are the pairs in which the phase judges the command and does not allow it. -/
theorem violatesProtocol_iff {i : Instr} {p : Phase} :
    ViolatesProtocol i.op p ↔ p ≠ .shift ∧ p ≠ .fault ∧ allowedFor i p = false := by
  cases p with
  | shift | fault => simp [ViolatesProtocol]
  | idle | active | done => simp [ViolatesProtocol, allowedFor_eq_false_iff]

/-- Settles O10: each cell is one of the three cases of `exec`, and the phases of the table are those of `exec_movesTo`. -/
theorem commandPhaseTable : Obligations.CommandPhaseTable := by
  intro i s
  have hviolates := violatesProtocol_iff (i := i) (p := s.phase i.unit)
  rcases exec_cases i s with ⟨hp, e⟩ | ⟨hs, hf, ha, e⟩ | ⟨hs, hf, ha, e⟩
  · have hv : ¬ViolatesProtocol i.op (s.phase i.unit) := fun h => by
      obtain ⟨hs, hf, _⟩ := hviolates.1 h
      exact hp.elim hs hf
    exact ⟨s, e, (exec_movesTo e).phase, (absurd · hv), fun _ => rfl, (absurd · hv), fun _ => rfl,
      fun _ hs hf => (hp.elim hs hf).elim⟩
  · have hv : ¬ViolatesProtocol i.op (s.phase i.unit) := fun h => by
      obtain ⟨_, _, hdisallowed⟩ := hviolates.1 h
      exact Bool.false_ne_true (hdisallowed.symm.trans ha)
    exact ⟨microOp i s, e, (exec_movesTo e).phase, (absurd · hv), fun _ => microOp_fcause i s i.unit, (absurd · hv),
      fun h => (h.elim hs hf).elim, fun _ _ _ => rfl⟩
  · have hv : ViolatesProtocol i.op (s.phase i.unit) := hviolates.2 ⟨hs, hf, ha⟩
    refine ⟨raiseFault i.unit .protocolError s, e, (exec_movesTo e).phase, fun _ => ?_, (absurd hv ·),
      fun _ => raiseFault_keeps_data _ _ s, fun h => (h.elim hs hf).elim, (absurd hv ·)⟩
    rw [raiseFault_ctl_same]
    rfl

/-! ### The order of the checks (R140) -/

/-- R56, R141: legal or reserved, a word for a unit in SHIFT or FAULT has no effect. -/
theorem perform_idles {w : CmdWord} {s : State} (h : s.phase (unitOf w) = .shift ∨ s.phase (unitOf w) = .fault) :
    perform (decode w) s = .next s := by
  cases hd : decode w with
  | legal i => exact exec_idles (decode_legal_unit hd ▸ h)
  | reserved u k => exact acceptAt_idles (decode_reserved_unit hd ▸ h)

/-- R141: a word for a unit in FAULT is taken off the port and discarded. -/
theorem step_discards {s : State} {w : CmdWord} {rest : List CmdWord} (ht : s.turn = .command) (hp : s.port = w :: rest)
    (hf : s.phase (unitOf w) = .fault) : step s = .next { s.advance with port := rest } := by
  have hs : s.phase (unitOf w) ≠ .shift := by simp [hf]
  rw [step_command_cons ht hp, if_neg hs, perform_idles (.inr (by simpa using hf))]

/-- Settles O22: the reset's turn is no other's, and in the host's turn each check is made where those before it have passed. -/
theorem checksAreMadeInOrder : Obligations.ChecksAreMadeInOrder := by
  intro s w rest hp
  refine ⟨fun n ht => ⟨resetStep n s.advance, step_of_turn ht, rfl, rfl, ?_⟩, fun ht => ?_⟩
  · rintro rfl
    rfl
  by_cases hs : s.phase (unitOf w) = .shift
  · rw [step_command_cons ht hp, if_pos hs, if_pos hs]
  rw [if_neg hs]
  by_cases hf : s.phase (unitOf w) = .fault
  · rw [if_pos hf, step_discards ht hp hf]
  rw [if_neg hf, step_command_cons ht hp, if_neg hs]
  cases hd : decode w with
  | reserved u k =>
    rw [← decode_reserved_unit hd] at hs hf
    exact acceptAt_judges (by simpa using hs) (by simpa using hf)
  | legal i =>
    have hphase : { s.advance with port := rest }.phase i.unit = s.phase (unitOf w) := by simp [decode_legal_unit hd]
    by_cases hviolates : i.op = .start ↔ s.phase (unitOf w) = .active
    · have ha := (allowedFor_eq_false_iff hs hf).2 hviolates
      exact (exec_disallowed hphase hs hf ha).trans (if_pos hviolates).symm
    · exact (if_neg hviolates).symm

/-! ### FAULT is kept until a reset (R141) -/

/-- R176: a unit that is not in SHIFT has no step of its own. -/
theorem step_own_quiet {u : UnitId} {s : State} (ht : s.turn = .own u) (hp : s.phase u ≠ .shift) : step s = .next s.advance := by
  cases u with
  | u16 => exact step_own16_quiet ht hp
  | u32 => exact step_own32_quiet ht hp

/-- A step that concerns a unit in FAULT changes no unit: at most a word leaves the port. -/
theorem step_concerning_fault {u : UnitId} {s : State} (hf : s.phase u = .fault) (hu : TurnConcerns u s) :
    ∃ ws, step s = .next { s.advance with port := ws } := by
  rcases hu with ht | ⟨ht, w, hc, rfl⟩
  · exact ⟨s.port, step_own_quiet ht (by simp [hf])⟩
  · obtain ⟨rest, hp⟩ := List.head?_eq_some_iff.1 hc
    exact ⟨rest, step_discards ht hp hf⟩

/-- There are two units (R1). -/
theorem eq_otherUnit {u v : UnitId} (h : v ≠ u) : v = otherUnit u := by
  cases u <;> cases v
  case u16.u32 | u32.u16 => rfl
  all_goals exact absurd rfl h

/-- In the host's turn with no word to present nothing happens. -/
theorem step_empty_port {s : State} (ht : s.turn = .command) (hc : cmd s = none) : step s = .next s.advance := by
  obtain ⟨_, _, hheld⟩ := busyUnitHoldsThePort s
  exact hheld ht (by rw [cmdAccept, hc])

/-- R141: in every step but a reset a unit in FAULT comes out with the registers it had. -/
theorem step_keeps_faulted {u : UnitId} {s t : State} (hf : s.phase u = .fault) (hr : isReset s.turn = false)
    (h : step s = .next t) : State.withOther (otherUnit u) s t = t := by
  have units_kept : ∀ ws, step s = .next { s.advance with port := ws } → State.withOther (otherUnit u) s t = t := by
    intro ws e
    rw [e] at h
    cases h
    cases u <;> rfl
  rcases turn_cases s with hreset | ⟨v, hv⟩ | ⟨ht, hc⟩
  · rw [hr] at hreset
    cases hreset
  · by_cases huv : v = u
    · obtain ⟨ws, e⟩ := step_concerning_fault hf (huv ▸ hv)
      exact units_kept ws e
    · exact eq_otherUnit huv ▸ withOther_of_step hv h
  · exact units_kept s.port (step_empty_port ht hc)

/-- Settles O21: a faulted unit's own turn passes, its words are discarded, and what concerns the other unit does not write it. -/
theorem faultIsStickyUntilReset : Obligations.FaultIsStickyUntilReset := by
  refine ⟨fun s t h hr => ⟨fun hf => ?_, fun hf => ?_⟩, fun s w rest ht hp hf => step_discards ht hp hf, fun s hr => ?_⟩
  · exact (congrArg State.u16 (step_keeps_faulted (u := .u16) hf hr h)).symm
  · exact (congrArg State.u32 (step_keeps_faulted (u := .u32) hf hr h)).symm
  · obtain ⟨n, ht⟩ := isReset_iff.1 hr
    exact ⟨resetStep n s.advance, step_of_turn ht, rfl, rfl⟩

end Sys2Proof.Machine
end

section
/-! PROOFS. A reset turn (R160, R161): what the host reads of a unit in IDLE with no cause, and the step itself, whatever the units
were doing. -/

namespace Sys2Proof.Machine

/-- R18: a unit in IDLE with no cause shows no flag and no cause. -/
theorem statusWord_idle {c : Control} (hph : c.ph = .idle) (hcause : c.fcause = 0#2) : statusWord c = 0b00000#5 := by
  unfold statusWord busy doneFlag flt
  rw [hph, hcause]
  decide

/-- R19: outside DONE there is no result to read on U16. -/
theorem res16_of_ne_done {s : State} (h : s.u16.ph ≠ .done) : res16 s = none := if_neg h

/-- R19: outside DONE there is no result to read on U32. -/
theorem res32_of_ne_done {s : State} (h : s.u32.ph ≠ .done) : res32 s = none := if_neg h

/-- R161: a reset turn asks nothing of the state it finds. -/
theorem step_resetTurn {s : State} {n : Nat} (ht : s.turn = .reset n) : step s = .next (resetStep n s.advance) :=
  step_of_turn ht

/-- Settles O23: the reset writes IDLE and no cause in both units, and the ports are read off those two registers. -/
theorem resetTurnClearsBothUnits : Obligations.ResetTurnClearsBothUnits := by
  intro s n ht
  refine ⟨resetStep n s.advance, step_resetTurn ht, rfl, rfl, rfl, rfl, statusWord_idle rfl rfl, statusWord_idle rfl rfl,
    res16_of_ne_done (by simp), res32_of_ne_done (by simp), ?_⟩
  rintro rfl
  rw [resetStep_port, List.drop_zero, advance_port]

end Sys2Proof.Machine
end

section
/-! PROOFS. What the other families need of encoding: the decoder inverts the encoder, and a word placed for the next step is the
instruction that step runs (R49, R50, R56). -/

namespace Sys2Proof.Machine

/-- Settles O1: a word decodes to the instruction whose fields it has, and the encoder's word is the only one with them. -/
theorem decodeInvertsEncode : Obligations.DecodeInvertsEncode :=
  fun _ _ => decode_legal_iff_encode

/-- Settles O6, by evaluating the decoder on each word. -/
theorem wordsWrittenOutDecode : Obligations.WordsWrittenOutDecode := by
  unfold Obligations.WordsWrittenOutDecode
  decide

/-- The encoder's word decodes to its instruction. -/
@[simp] theorem decode_encode (i : Instr) : decode (encode i) = .legal i := decode_legal_iff_encode.2 rfl

/-- Settles O8: the word is not held, and performing a legal word is `exec`. -/
theorem stepRunsDecodedInstruction : Obligations.StepRunsDecodedInstruction := by
  intro s w rest i ht hp hd hs
  rw [decode_legal_unit hd] at hs
  rw [step_command_cons ht hp, if_neg hs, hd]
  rfl

/-- A word of the port, read from a table of 11 bits or more, is that word. -/
theorem tableWord_toNat {nbits : Nat} (hn : 11 ≤ nbits) (w : CmdWord) : tableWord nbits w.toNat = some w := by
  have hmod : w.toNat % 2 ^ nbits = w.toNat :=
    Nat.mod_eq_of_lt (w.isLt.trans_le (Nat.pow_le_pow_right two_pos hn))
  rw [tableWord, hmod, if_pos w.isLt, BitVec.ofNat_toNat, BitVec.setWidth_eq]

/-- Settles O7: the table's number is the word itself, which decodes to its instruction, and placing it gives the host the turn. -/
theorem placedWordRunsNext : Obligations.PlacedWordRunsNext := by
  intro i nbits s hn
  have hword := tableWord_toNat hn (encode i)
  refine ⟨by simp [decodeTableWord, hword], fun hs => ?_⟩
  rw [State.withFetchWord, hword]
  exact stepRunsDecodedInstruction (placeWord (encode i) s) (encode i) s.port i rfl rfl (decode_encode i)
    ((sameUnits_phase s _ _ _ _).trans_ne hs)

end Sys2Proof.Machine
end

section
/-! PROOFS. One step seen from one unit (R150, R176), and the frames of the commands and of a unit's own turn.

To a unit, a step that is no reset is one of three events: it passes the unit by, it is the unit's own step, or it performs a word
for the unit. Progress, quiet and the stable result are read off these events. -/

namespace Sys2Proof.Machine

/-! ### What the turns leave of the port -/

theorem raiseFault_ownFields (u : UnitId) (c : Cause) (s : State) :
    (raiseFault u c s).port = s.port ∧ (raiseFault u c s).sched = s.sched ∧ (raiseFault u c s).tick = s.tick := by
  simp

theorem microOp_ownFields (i : Instr) (s : State) :
    (microOp i s).port = s.port ∧ (microOp i s).sched = s.sched ∧ (microOp i s).tick = s.tick := by
  cases i <;> exact ⟨rfl, rfl, rfl⟩

/-- No command writes one of the model's own fields. -/
theorem exec_ownFields {i : Instr} {s t : State} (h : exec i s = .next t) :
    t.port = s.port ∧ t.sched = s.sched ∧ t.tick = s.tick := by
  rcases exec_cases i s with ⟨_, e⟩ | ⟨_, _, _, e⟩ | ⟨_, _, _, e⟩ <;> rw [e] at h <;> cases h
  · exact ⟨rfl, rfl, rfl⟩
  · exact microOp_ownFields i s
  · exact raiseFault_ownFields _ _ s

/-- R56: the port is the handshake's, not the performed word's. -/
theorem perform_port {d : Decoded} {s t : State} (h : perform d s = .next t) : t.port = s.port := by
  cases d with
  | legal i => exact (exec_ownFields h).1
  | reserved u k =>
    rcases acceptReserved_cases u s with ⟨_, e⟩ | ⟨_, _, e⟩ <;> rw [perform, e] at h <;> cases h
    · rfl
    · exact raiseFault_port s u _

/-- A unit's own step leaves the port and its cause. -/
theorem ownStep_port_fcause {s t : State} : ∀ {u : UnitId}, ownStep u s = .next t →
    t.port = s.port ∧ (t.ctl u).fcause = (s.ctl u).fcause
  | .u16, h => by
    rcases ownStep16_cases s with ⟨_, e⟩ | ⟨_, _, e⟩ | ⟨_, _, e⟩ <;> rw [ownStep, e] at h <;> cases h <;> exact ⟨rfl, rfl⟩
  | .u32, h => by
    rcases ownStep32_cases s with ⟨_, e⟩ | ⟨_, _, e⟩ | ⟨_, _, e⟩ <;> rw [ownStep, e] at h <;> cases h <;> exact ⟨rfl, rfl⟩

/-! ### The events -/

/-- Unit `u` holds in `t` what it holds in `s`. -/
def SameUnit (u : UnitId) (s t : State) : Prop :=
  match u with
  | .u16 => t.u16 = s.u16
  | .u32 => t.u32 = s.u32

theorem sameUnit_phase {s t : State} : ∀ {u : UnitId}, SameUnit u s t → t.phase u = s.phase u
  | .u16, h => congrArg (fun x : Unit16 => x.ph) h
  | .u32, h => congrArg (fun x : Unit32 => x.ph) h

/-- Only the model's own fields change when the units of `s` go into a state as they are. -/
theorem sameUnit_mk (u : UnitId) (s : State) (ws : List CmdWord) (ts : List Config.Turn) (n : Nat) :
    SameUnit u s (State.mk s.u16 s.u32 ws ts n) := by
  cases u <;> rfl

/-- A step that concerns the other unit leaves this one as it is. -/
theorem sameUnit_of_concerns_other {u v : UnitId} {s t : State} (huv : v ≠ u) (hv : TurnConcerns v s) (h : step s = .next t) :
    SameUnit u s t := by
  have hkept := withOther_of_step hv h
  cases u <;> cases v
  case u16.u32 => exact (congrArg State.u16 hkept).symm
  case u32.u16 => exact (congrArg State.u32 hkept).symm
  all_goals exact absurd rfl huv

/-- What a step from `s` to `t` that is no reset is to unit `u`. -/
inductive UnitEvent (u : UnitId) (s t : State) : Prop
  /-- It neither changes the unit nor takes a word for it; if it was the unit's turn, no own step was enabled (R176). -/
  | passes (kept : SameUnit u s t) (words : wordsFor u t.port = wordsFor u s.port) (notDue : s.turn = .own u → s.phase u ≠ .shift)
  /-- It is the unit's own step (R78, R79, R98). -/
  | own (turn : s.turn = .own u) (busy : s.phase u = .shift) (result : ownStep u s.advance = .next t)
  /-- It takes a word for the unit off the port and performs it (R56). -/
  | word (w : CmdWord) (rest : List CmdWord) (turn : s.turn = .command) (port : s.port = w :: rest) (addressed : unitOf w = u)
      (free : s.phase u ≠ .shift) (result : perform (decode w) { s.advance with port := rest } = .next t)

/-- Where only the model's own fields change but not the port, the step has passed the unit by. -/
theorem UnitEvent.of_advance {u : UnitId} {s t : State} (h : step s = .next t) (hadv : step s = .next s.advance)
    (notDue : s.turn = .own u → s.phase u ≠ .shift) : UnitEvent u s t := by
  rw [hadv] at h
  cases h
  exact .passes (sameUnit_mk u s _ _ _) rfl notDue

theorem step_own {u : UnitId} {s : State} (ht : s.turn = .own u) : step s = ownStep u s.advance := step_of_turn ht

/-- A step that concerns the other unit passes this one by: what it may take off the port is a word for the other. -/
theorem UnitEvent.of_concerns_other {u v : UnitId} {s t : State} (huv : v ≠ u) (hv : TurnConcerns v s) (h : step s = .next t) :
    UnitEvent u s t := by
  refine .passes (sameUnit_of_concerns_other huv hv h) ?_ ?_
  · rcases hv with ht | ⟨ht, w, hc, rfl⟩
    · rw [(ownStep_port_fcause ((step_own ht).symm.trans h)).1, advance_port]
    · obtain ⟨rest, hp⟩ := List.head?_eq_some_iff.1 hc
      rw [step_command_cons ht hp] at h
      split at h
      · cases h
        rfl
      · rw [perform_port h, hp, wordsFor_cons, if_neg huv]
  · intro ht
    rcases hv with hv | ⟨hv, _⟩ <;> rw [hv] at ht
    · exact absurd (Config.Turn.own.inj ht) huv
    · cases ht

/-- The inversion of `step` for one unit: every step but a reset is one of the three events. -/
theorem step_unitEvent (u : UnitId) {s t : State} (hr : isReset s.turn = false) (h : step s = .next t) : UnitEvent u s t := by
  rcases turn_cases s with hreset | ⟨v, hv⟩ | ⟨ht, hc⟩
  · rw [hr] at hreset
    cases hreset
  · by_cases huv : v = u
    · subst huv
      rcases hv with ht | ⟨ht, w, hc, rfl⟩
      · by_cases hs : s.phase v = .shift
        · exact .own ht hs ((step_own ht).symm.trans h)
        · exact .of_advance h (step_own_quiet ht hs) fun _ => hs
      · obtain ⟨rest, hp⟩ := List.head?_eq_some_iff.1 hc
        have hstep := step_command_cons ht hp
        by_cases hs : s.phase (unitOf w) = .shift
        · exact .of_advance h (hstep.trans (if_pos hs)) (by simp [ht])
        · exact .word w rest ht hp rfl hs ((hstep.trans (if_neg hs)).symm.trans h)
    · exact .of_concerns_other huv hv h
  · exact .of_advance h (step_empty_port ht hc) (by simp [ht])

/-- R56: a word for the unit is accepted exactly in the events that perform one. -/
theorem acceptsFor_of_word {u : UnitId} {s : State} {w : CmdWord} {rest : List CmdWord} (ht : s.turn = .command)
    (hp : s.port = w :: rest) (hu : unitOf w = u) (hs : s.phase u ≠ .shift) : acceptsFor u s = true := by
  subst hu
  simp [acceptsFor, ht, (cmdAccept_cons hp).2 hs, cmd, hp]

/-! ### Quiet, progress and the stable result -/

/-- R150: with nothing to do and no word accepted, a unit keeps every register. -/
theorem step_quiet {u : UnitId} {s t : State} (hr : isReset s.turn = false) (hs : s.phase u ≠ .shift) (ha : acceptsFor u s = false)
    (h : step s = .next t) : SameUnit u s t := by
  rcases step_unitEvent u hr h with ⟨kept, _, _⟩ | ⟨_, hbusy, _⟩ | ⟨w, rest, ht, hp, hu, hfree, _⟩
  · exact kept
  · exact absurd hbusy hs
  · rw [acceptsFor_of_word ht hp hu hfree] at ha
    cases ha

/-- Settles O38, for each unit. -/
theorem quietUnitKeepsItsState : Obligations.QuietUnitKeepsItsState :=
  fun _ _ h hr => ⟨fun hs ha => step_quiet (u := .u16) hr hs ha h, fun hs ha => step_quiet (u := .u32) hr hs ha h⟩

theorem ownStepsLeft_eq_zero {s : State} : ∀ {u : UnitId}, s.phase u ≠ .shift → ownStepsLeft u s = 0
  | .u16, h => if_neg h
  | .u32, h => if_neg h

theorem ownStepsLeft_u16 {s : State} (h : s.u16.ph = .shift) : ownStepsLeft .u16 s = s.u16.cnt.toNat + 1 := if_pos h

theorem ownStepsLeft_u32 {s : State} (h : s.u32.ph = .shift) : ownStepsLeft .u32 s = s.u32.cnt.toNat := if_pos h

theorem ownStepsLeft_congr {s t : State} : ∀ {u : UnitId}, SameUnit u s t → ownStepsLeft u t = ownStepsLeft u s
  | .u16, h => congrArg (fun x : Unit16 => if x.ph = .shift then x.cnt.toNat + 1 else 0) h
  | .u32, h => congrArg (fun x : Unit32 => if x.ph = .shift then x.cnt.toNat else 0) h

/-- R80: a step of U16's fold is one of those it has left. -/
theorem ownStep16_counts {s t : State} (hs : s.u16.ph = .shift) (h : ownStep16 s = .next t) :
    ownStepsLeft .u16 t + 1 = ownStepsLeft .u16 s := by
  rcases ownStep16_cases s with ⟨hq, _⟩ | ⟨_, hc, e⟩ | ⟨_, hc, e⟩
  · exact absurd hs hq
  · rw [e] at h
    cases h
    rw [ownStepsLeft_u16 hs, hc]
    rfl
  · rw [e] at h
    cases h
    rw [ownStepsLeft_u16 hs, ownStepsLeft_u16 (s := bitStep16 s) hs]
    exact congrArg (· + 1) (cnt_pred hc)

/-- R99: a step of U32's fold is one of those it has left. -/
theorem ownStep32_counts {s t : State} (hs : s.u32.ph = .shift) (h : ownStep32 s = .next t) :
    ownStepsLeft .u32 t + 1 = ownStepsLeft .u32 s := by
  rcases ownStep32_cases s with ⟨hq, _⟩ | ⟨_, _, e⟩ | ⟨_, hc, e⟩
  · exact absurd hs hq
  · rw [e] at h
    cases h
  · rw [e] at h
    cases h
    rw [ownStepsLeft_u32 hs]
    by_cases hlast : s.u32.cnt = 1#4
    · have hactive : (bitStep32 s).phase .u32 = .active := if_pos hlast
      rw [ownStepsLeft_eq_zero (u := .u32) (by rw [hactive]; nofun), hlast]
      rfl
    · have hshift : (bitStep32 s).u32.ph = .shift := (if_neg hlast).trans hs
      rw [ownStepsLeft_u32 hshift]
      exact cnt_pred hc

theorem ownStep_counts {s t : State} : ∀ {u : UnitId}, s.phase u = .shift → ownStep u s = .next t →
    ownStepsLeft u t + 1 = ownStepsLeft u s
  | .u16 => ownStep16_counts
  | .u32 => ownStep32_counts

/-- R176: a busy unit moves in its own turn only, by one of the steps it has left. -/
theorem step_busy {u : UnitId} {s t : State} (hr : isReset s.turn = false) (hs : s.phase u = .shift) (h : step s = .next t) :
    (s.turn = .own u → ownStepsLeft u t + 1 = ownStepsLeft u s) ∧ (s.turn ≠ .own u → SameUnit u s t) := by
  rcases step_unitEvent u hr h with ⟨kept, _, hnot⟩ | ⟨ht, _, hres⟩ | ⟨_, _, _, _, _, hfree, _⟩
  · exact ⟨fun ht => absurd hs (hnot ht), fun _ => kept⟩
  · have hcount := ownStep_counts ((advance_phase s u).trans hs) hres
    exact ⟨fun _ => hcount.trans (ownStepsLeft_congr (sameUnit_mk u s _ _ _)), absurd ht⟩
  · exact absurd hs hfree

/-- Settles O37, for each unit. -/
theorem busyUnitProgressesOnlyByItself : Obligations.BusyUnitProgressesOnlyByItself :=
  fun _ _ h hr => ⟨fun hs => step_busy (u := .u16) hr hs h, fun hs => step_busy (u := .u32) hr hs h⟩

theorem res16_of_done {s : State} (h : s.u16.ph = .done) : res16 s = some s.u16.crc := if_pos h

theorem res32_of_done {s : State} (h : s.u32.ph = .done) : res32 s = some s.u32.crc := if_pos h

theorem res16_eq_some {s : State} {v : Word16} (h : res16 s = some v) : s.u16.ph = .done := by
  by_contra hne
  rw [res16_of_ne_done hne] at h
  cases h

theorem res32_eq_some {s : State} {v : Word32} (h : res32 s = some v) : s.u32.ph = .done := by
  by_contra hne
  rw [res32_of_ne_done hne] at h
  cases h

/-- Settles O36: the reads follow the result ports, which are a function of the unit; and a unit in DONE is quiet. -/
theorem resultIsShownOnlyInDone : Obligations.ResultIsShownOnlyInDone := by
  refine ⟨fun s => ⟨fun h => ?_, fun h => ?_, fun h => ?_, fun h => ?_, fun _ => ⟨rfl, rfl⟩⟩,
    fun s t h hr => ⟨fun v ha hv => ?_, fun v ha hv => ?_⟩⟩
  · rw [readRes16, res16_of_done h]
  · rw [readRes16, res16_of_ne_done h]
  · rw [readRes32, res32_of_done h]
  · rw [readRes32, res32_of_ne_done h]
  · have hdone := res16_eq_some hv
    have hkept : t.u16 = s.u16 := step_quiet (u := .u16) hr (by simp [hdone]) ha h
    rw [res16, hkept]
    exact hv
  · have hdone := res32_eq_some hv
    have hkept : t.u32 = s.u32 := step_quiet (u := .u32) hr (by simp [hdone]) ha h
    rw [res32, hkept]
    exact hv

/-! ### Frames -/

/-- The data registers of its unit that a command leaves in every phase. -/
def KeepsUnwritten (i : Instr) (s t : State) : Prop :=
  match i with
  | .start16 => t.u16.wrk = s.u16.wrk
  | .byte16 _ => t.u16.crc = s.u16.crc
  | .finish16 => t.u16.crc = s.u16.crc ∧ t.u16.wrk = s.u16.wrk ∧ t.u16.cnt = s.u16.cnt
  | .start32 | .byte32 _ => True
  | .finish32 => t.u32.cnt = s.u32.cnt

theorem keepsUnwritten_self (i : Instr) (s : State) : KeepsUnwritten i s s := by
  cases i <;> simp [KeepsUnwritten]

theorem keepsUnwritten_raiseFault (i : Instr) (c : Cause) (s : State) : KeepsUnwritten i s (raiseFault i.unit c s) := by
  cases i <;> simp [KeepsUnwritten, Instr.unit]

/-- START writes no `wrk`, LOAD16 no `crc`, FINAL no `wrk` and no `cnt`; and the final XOR of U16 changes nothing (R66). -/
theorem keepsUnwritten_microOp (i : Instr) (s : State) : KeepsUnwritten i s (microOp i s) := by
  cases i with
  | finish16 => exact ⟨xor_arc_xorout _, rfl, rfl⟩
  | start16 | byte16 _ | finish32 => exact rfl
  | start32 | byte32 _ => exact trivial

theorem exec_keepsUnwritten {i : Instr} {s t : State} (h : exec i s = .next t) : KeepsUnwritten i s t := by
  rcases exec_cases i s with ⟨_, e⟩ | ⟨_, _, _, e⟩ | ⟨_, _, _, e⟩ <;> rw [e] at h <;> cases h
  · exact keepsUnwritten_self i s
  · exact keepsUnwritten_microOp i s
  · exact keepsUnwritten_raiseFault i _ s

/-- Settles O26: a command is local to its unit and writes the cause on fault entry only. -/
theorem commandsLeaveTheRestUnchanged : Obligations.CommandsLeaveTheRestUnchanged := by
  intro i s t h
  obtain ⟨hport, hsched, htick⟩ := exec_ownFields h
  have hother : State.withOther i.unit s t = t := by
    have hlocal := exec_local i s s t h
    rw [withOther_self, h] at hlocal
    exact (Host.Outcome.next.inj hlocal).symm
  refine ⟨hport, hsched, htick, fun hu => ?_, fun hu => ?_, fun hne => ?_, exec_keepsUnwritten h⟩
  · rw [hu] at hother
    exact (congrArg State.u32 hother).symm
  · rw [hu] at hother
    exact (congrArg State.u16 hother).symm
  · by_contra hentry
    refine hne ((exec_movesTo h).kept ?_)
    rwa [not_and_or, not_not, or_comm] at hentry

/-- R78, R79: BITSTEP16 does not write `crc`, FOLD16 writes neither `wrk` nor `cnt`. -/
theorem ownStep16_keeps_data {s t : State} (h : ownStep16 s = .next t) :
    (s.u16.cnt ≠ 0#4 → t.u16.crc = s.u16.crc) ∧ (s.u16.cnt = 0#4 → t.u16.wrk = s.u16.wrk ∧ t.u16.cnt = s.u16.cnt) := by
  rcases ownStep16_cases s with ⟨_, e⟩ | ⟨_, hc, e⟩ | ⟨_, hc, e⟩ <;> rw [e] at h <;> cases h
  · exact ⟨fun _ => rfl, fun _ => ⟨rfl, rfl⟩⟩
  · exact ⟨absurd hc, fun _ => ⟨rfl, rfl⟩⟩
  · exact ⟨fun _ => rfl, fun h0 => absurd h0 hc⟩

/-- Settles O27: an own turn is local to its unit, and of the port, the cause and the data registers it leaves what `ownStep` leaves. -/
theorem ownStepsLeaveTheRestUnchanged : Obligations.OwnStepsLeaveTheRestUnchanged := by
  intro u s t ht h
  have hres : ownStep u s.advance = .next t := (step_own ht).symm.trans h
  obtain ⟨hsched, htick⟩ := step_ownFields h
  obtain ⟨hport, hcause⟩ := ownStep_port_fcause hres
  rw [advance_ctl] at hcause
  refine ⟨hport, hsched, htick, hcause, ?_, ?_⟩
  · rintro rfl
    exact ⟨sameUnit_of_concerns_other (u := .u32) (v := .u16) nofun (.inl ht) h, ownStep16_keeps_data (s := s.advance) hres⟩
  · rintro rfl
    exact sameUnit_of_concerns_other (u := .u16) (v := .u32) nofun (.inl ht) h

end Sys2Proof.Machine
end

section
/-! PROOFS. The invariant of reachable states (R26): it holds at reset, every step keeps it, and no step from it stops (R135).

Phase by phase the invariant is one short condition, the same for both units but for what it asks of a fold under way. A step then
has to meet the condition of the phase it leads to. -/

namespace Sys2Proof.Machine

/-! ### The invariant, phase by phase -/

/-- R26 of the control registers, for the condition that holds of a fold under way. -/
def PhaseInv (c : Control) (folding : Prop) : Prop :=
  match c.ph with
  | .idle => c.fcause = 0#2
  | .active | .done => c.fcause = 0#2 ∧ c.cnt = 0#4
  | .shift => c.fcause = 0#2 ∧ folding
  | .fault => c.fcause = 1#2 ∨ c.fcause = 2#2

/-- R26: U16 in SHIFT. -/
def Folding16 (u : Unit16) : Prop :=
  u.cnt.toNat ≤ 8 ∧ (u.cnt = 8#4 → u.wrk.toNat < 0x100)

/-- R26: U32 in SHIFT. -/
def Folding32 (u : Unit32) : Prop :=
  1 ≤ u.cnt.toNat ∧ u.cnt.toNat ≤ 8

/-- R20, R143: of the four values of `fcause` FAULT has two and every other phase has 0. -/
theorem causeInv_iff (c : Control) : CauseInv c ↔ if c.ph = .fault then c.fcause = 1#2 ∨ c.fcause = 2#2 else c.fcause = 0#2 := by
  unfold CauseInv
  generalize c.fcause = cause, c.ph = p
  revert cause
  cases p <;> decide

theorem inv16_iff (u : Unit16) : Inv16 u ↔ PhaseInv u.toControl (Folding16 u) := by
  unfold Inv16
  rw [causeInv_iff]
  cases hp : u.ph <;> simp [PhaseInv, Folding16, hp]

theorem inv32_iff (u : Unit32) : Inv32 u ↔ PhaseInv u.toControl (Folding32 u) := by
  unfold Inv32
  rw [causeInv_iff]
  cases hp : u.ph <;> simp [PhaseInv, Folding32, hp]

/-- R26 of one unit of a state. -/
def UnitInv (u : UnitId) (s : State) : Prop :=
  match u with
  | .u16 => PhaseInv s.u16.toControl (Folding16 s.u16)
  | .u32 => PhaseInv s.u32.toControl (Folding32 s.u32)

theorem stateInv_iff {s : State} : StateInv s ↔ ∀ u, UnitInv u s := by
  rw [StateInv, inv16_iff, inv32_iff]
  exact ⟨fun ⟨h16, h32⟩ u => u.casesOn h16 h32, fun h => ⟨h .u16, h .u32⟩⟩

theorem unitInv_congr {s t : State} : ∀ {u : UnitId}, SameUnit u s t → UnitInv u s → UnitInv u t
  | .u16, h, hi => congrArg (fun x : Unit16 => PhaseInv x.toControl (Folding16 x)) h |>.mpr hi
  | .u32, h, hi => congrArg (fun x : Unit32 => PhaseInv x.toControl (Folding32 x)) h |>.mpr hi

/-! ### What the invariant says in each phase -/

theorem unitInv_of_idle {s : State} : ∀ {u : UnitId}, s.phase u = .idle → (s.ctl u).fcause = 0#2 → UnitInv u s
  | .u16, hp, hc => by simp_all [UnitInv, PhaseInv]
  | .u32, hp, hc => by simp_all [UnitInv, PhaseInv]

theorem unitInv_of_fault {s : State} : ∀ {u : UnitId}, s.phase u = .fault → (s.ctl u).fcause = 1#2 ∨ (s.ctl u).fcause = 2#2 →
    UnitInv u s
  | .u16, hp, hc => by simp_all [UnitInv, PhaseInv]
  | .u32, hp, hc => by simp_all [UnitInv, PhaseInv]

/-- In ACTIVE and DONE the counter is 0. -/
theorem unitInv_of_settled {s : State} : ∀ {u : UnitId}, s.phase u = .active ∨ s.phase u = .done → (s.ctl u).fcause = 0#2 →
    (s.ctl u).cnt = 0#4 → UnitInv u s
  | .u16, hp, hc, hn => by rcases hp with hp | hp <;> simp_all [UnitInv, PhaseInv]
  | .u32, hp, hc, hn => by rcases hp with hp | hp <;> simp_all [UnitInv, PhaseInv]

theorem UnitInv.fcause {u : UnitId} {s : State} (hi : UnitInv u s) (hp : s.phase u ≠ .fault) : (s.ctl u).fcause = 0#2 := by
  cases u
  all_goals
    simp only [UnitInv, PhaseInv] at hi
    split at hi <;> simp_all

theorem UnitInv.cnt {u : UnitId} {s : State} (hi : UnitInv u s) (hp : s.phase u = .active) : (s.ctl u).cnt = 0#4 := by
  cases u <;> simp_all [UnitInv, PhaseInv]

theorem UnitInv.folding16 {s : State} (hi : UnitInv .u16 s) (hp : s.u16.ph = .shift) : Folding16 s.u16 := by
  simp_all [UnitInv, PhaseInv]

theorem UnitInv.folding32 {s : State} (hi : UnitInv .u32 s) (hp : s.u32.ph = .shift) : Folding32 s.u32 := by
  simp_all [UnitInv, PhaseInv]

/-! ### The host's turn -/

theorem unitInv_raiseFault (u : UnitId) (c : Cause) (s : State) : UnitInv u (raiseFault u c s) := by
  refine unitInv_of_fault (by simp [State.phase]) ?_
  rw [raiseFault_ctl_same]
  cases c
  · exact .inl rfl
  · exact .inr rfl

/-- INIT clears the counter, LOAD begins a fold of one byte, and FINAL finds the counter 0. -/
theorem unitInv_microOp {i : Instr} {s : State} (hi : UnitInv i.unit s) (ha : allowedFor i (s.phase i.unit) = true) :
    UnitInv i.unit (microOp i s) := by
  have hcause : ((microOp i s).ctl i.unit).fcause = 0#2 := by
    rw [microOp_fcause]
    refine hi.fcause fun hf => ?_
    rw [hf] at ha
    cases i <;> cases ha
  cases i with
  | start16 | start32 => exact unitInv_of_settled (.inl rfl) hcause rfl
  | byte16 b => exact ⟨hcause, le_rfl, fun _ => Nat.lt_succ_of_le (zext16_le _)⟩
  | byte32 b => exact ⟨hcause, (by decide : 1 ≤ (8#4).toNat), le_rfl⟩
  | finish16 | finish32 => exact unitInv_of_settled (.inr rfl) hcause (hi.cnt (allowsByteOrFinish_iff.1 ha))

theorem unitInv_perform {w : CmdWord} {s t : State} (hi : UnitInv (unitOf w) s) (h : perform (decode w) s = .next t) :
    UnitInv (unitOf w) t := by
  cases hd : decode w with
  | legal i =>
    rw [← decode_legal_unit hd] at hi ⊢
    rw [hd, perform] at h
    rcases exec_cases i s with ⟨_, e⟩ | ⟨_, _, ha, e⟩ | ⟨_, _, _, e⟩ <;> rw [e] at h <;> cases h
    · exact hi
    · exact unitInv_microOp hi ha
    · exact unitInv_raiseFault _ _ s
  | reserved u k =>
    rw [← decode_reserved_unit hd] at hi ⊢
    rw [hd, perform] at h
    rcases acceptReserved_cases u s with ⟨_, e⟩ | ⟨_, _, e⟩ <;> rw [e] at h <;> cases h
    · exact hi
    · exact unitInv_raiseFault _ _ s

/-! ### A unit's own step -/

/-- R80: the counter of U16 goes from 8 to 0 and stays 0 in the fold's last step. -/
theorem unitInv_ownStep16 {s t : State} (hi : UnitInv .u16 s) (h : ownStep16 s = .next t) : UnitInv .u16 t := by
  rcases ownStep16_cases s with ⟨_, e⟩ | ⟨hp, hc, e⟩ | ⟨hp, hc, e⟩ <;> rw [e] at h <;> cases h
  · exact hi
  · exact unitInv_of_settled (.inl rfl) (hi.fcause (by simp [hp])) hc
  · obtain ⟨hle, _⟩ := hi.folding16 hp
    have hpred : (bitStep16 s).u16.cnt.toNat + 1 = s.u16.cnt.toNat := cnt_pred hc
    have hfold : Folding16 (bitStep16 s).u16 := by
      refine ⟨by omega, fun h8 => ?_⟩
      rw [h8, BitVec.toNat_ofNat] at hpred
      omega
    have hcause : (bitStep16 s).u16.fcause = 0#2 := hi.fcause (u := .u16) (by simp [hp])
    simpa [UnitInv, PhaseInv, hp] using ⟨hcause, hfold⟩

/-- R99: the counter of U32 goes from 8 to 1, and to 0 in the fold's last step. -/
theorem unitInv_ownStep32 {s t : State} (hi : UnitInv .u32 s) (h : ownStep32 s = .next t) : UnitInv .u32 t := by
  rcases ownStep32_cases s with ⟨_, e⟩ | ⟨_, _, e⟩ | ⟨hp, hc, e⟩ <;> rw [e] at h <;> cases h
  · exact hi
  · obtain ⟨_, hle⟩ := hi.folding32 hp
    have hcause : (bitStep32 s).u32.fcause = 0#2 := hi.fcause (u := .u32) (by simp [hp])
    have hpred : (bitStep32 s).u32.cnt.toNat + 1 = s.u32.cnt.toNat := cnt_pred hc
    by_cases hlast : s.u32.cnt = 1#4
    · have hzero : (bitStep32 s).u32.cnt = 0#4 := by simp [hlast]
      exact unitInv_of_settled (.inl (if_pos hlast)) hcause hzero
    · have hfold : Folding32 (bitStep32 s).u32 := by
        refine ⟨?_, by omega⟩
        by_contra hlow
        exact hlast (BitVec.eq_of_toNat_eq (by simp only [BitVec.toNat_ofNat]; omega))
      simpa [UnitInv, PhaseInv, hp, hlast] using ⟨hcause, hfold⟩

theorem unitInv_ownStep {s t : State} : ∀ {u : UnitId}, UnitInv u s → ownStep u s = .next t → UnitInv u t
  | .u16 => unitInv_ownStep16
  | .u32 => unitInv_ownStep32

/-! ### Every step -/

/-- R160: a reset leads to IDLE with no cause. -/
theorem unitInv_reset {s t : State} (u : UnitId) (hr : isReset s.turn = true) (h : step s = .next t) : UnitInv u t := by
  obtain ⟨_, hp, hc⟩ := step_reset u hr h
  exact unitInv_of_idle hp hc

theorem step_keeps_unitInv {u : UnitId} {s t : State} (hi : UnitInv u s) (h : step s = .next t) : UnitInv u t := by
  cases hr : isReset s.turn with
  | true => exact unitInv_reset u hr h
  | false =>
    rcases step_unitEvent u hr h with ⟨kept, _, _⟩ | ⟨_, _, hres⟩ | ⟨w, rest, _, _, rfl, _, hres⟩
    · exact unitInv_congr kept hi
    · exact unitInv_ownStep (unitInv_congr (sameUnit_mk u s _ _ _) hi) hres
    · exact unitInv_perform (unitInv_congr (sameUnit_mk _ s _ _ _) hi) hres

theorem step_keeps_inv {s t : State} (hi : StateInv s) (h : step s = .next t) : StateInv t :=
  stateInv_iff.2 fun u => step_keeps_unitInv (stateInv_iff.1 hi u) h

/-- Settles O30: each event of a unit, and the reset, leads to a phase whose condition it meets. -/
theorem invariantIsKept : Obligations.InvariantIsKept :=
  fun _ _ => step_keeps_inv

/-- Settles O31: both units are in IDLE with no cause. -/
theorem invariantHoldsAtReset : Obligations.InvariantHoldsAtReset :=
  stateInv_iff.2 fun u => unitInv_of_idle (by cases u <;> rfl) (by cases u <;> rfl)

/-! ### No step stops -/

/-- R135: performing a word always answers a next state. -/
theorem perform_total (d : Decoded) (s : State) : ∃ t, perform d s = .next t := by
  cases d with
  | legal i => rcases exec_cases i s with ⟨_, e⟩ | ⟨_, _, _, e⟩ | ⟨_, _, _, e⟩ <;> exact ⟨_, e⟩
  | reserved u k => rcases acceptReserved_cases u s with ⟨_, e⟩ | ⟨_, _, e⟩ <;> exact ⟨_, e⟩

/-- R64: with the invariant U32's counter is not 0 in SHIFT, so no own step stops. -/
theorem ownStep_total {s : State} (hi : StateInv s) : ∀ u, ∃ t, ownStep u s = .next t
  | .u16 => by rcases ownStep16_cases s with ⟨_, e⟩ | ⟨_, _, e⟩ | ⟨_, _, e⟩ <;> exact ⟨_, e⟩
  | .u32 => by
    rcases ownStep32_cases s with ⟨_, e⟩ | ⟨hp, hc, _⟩ | ⟨_, _, e⟩
    · exact ⟨_, e⟩
    · obtain ⟨hpos, _⟩ := (stateInv_iff.1 hi .u32).folding32 hp
      rw [hc] at hpos
      cases hpos
    · exact ⟨_, e⟩

theorem step_total {s : State} (hi : StateInv s) : ∃ t, step s = .next t := by
  cases ht : s.turn with
  | reset n => exact ⟨_, step_resetTurn ht⟩
  | own u =>
    rw [step_own ht]
    exact ownStep_total (s := s.advance) hi u
  | command =>
    cases hp : s.port with
    | nil => exact ⟨_, step_empty_port ht (by rw [cmd, hp]; rfl)⟩
    | cons w rest =>
      rw [step_command_cons ht hp]
      split
      · exact ⟨_, rfl⟩
      · exact perform_total _ _

/-- Settles O32: a reset, a word and an own step each answer a next state. -/
theorem invariantStatesNeverStop : Obligations.InvariantStatesNeverStop :=
  fun _ => step_total

end Sys2Proof.Machine
end

section
/-! PROOFS. Arithmetic of the division step and of the folds (R61, R67, R68, R81, R124 to R126).

The steps are linear and, on zero low bits, only shift. A register is its high byte XOR its low byte; the one is only shifted in eight
steps, the other is what CRC-16's side register divides. So the side register computes the direct form, which is that of the generic
routine. -/

namespace Sys2Proof.Machine

/-! ### The division step -/

/-- R61: the step halves the number and XORs in the polynomial if it was odd. -/
theorem toNat_divStep {w : Nat} (v : Config.Variant w) (x : BitVec w) :
    (divStep v x).toNat = if x.toNat % 2 = 1 then (x.toNat / 2) ^^^ v.poly.toNat else x.toNat / 2 := by
  have hhalf : (x >>> 1).toNat = x.toNat / 2 := by
    rw [BitVec.toNat_ushiftRight, Nat.shiftRight_eq_div_pow, pow_one]
  have hodd : x.getLsbD 0 = true ↔ x.toNat % 2 = 1 := by
    rw [← BitVec.testBit_toNat, Nat.testBit_zero, decide_eq_true_iff]
  simp only [divStep, hodd]
  split
  · rw [BitVec.toNat_xor, hhalf]
  · exact hhalf

/-- Settles O41, at each unit's polynomial. -/
theorem divisionStepOnNaturals : Obligations.DivisionStepOnNaturals :=
  ⟨toNat_divStep Config.arc, toNat_divStep Config.isoHdlc⟩

/-- R67: a bit of the step is a sum of bits, so one step is linear. -/
theorem divStep_xor {w : Nat} (v : Config.Variant w) (x y : BitVec w) : divStep v (x ^^^ y) = divStep v x ^^^ divStep v y := by
  refine BitVec.eq_of_getLsbD_eq fun i _ => ?_
  simp only [getLsbD_divStep, BitVec.getLsbD_xor, Bool.and_xor_distrib_right, Bool.xor_assoc, Bool.xor_left_comm]

theorem divSteps_xor {w : Nat} (v : Config.Variant w) (k : Nat) (x y : BitVec w) :
    divSteps v k (x ^^^ y) = divSteps v k x ^^^ divSteps v k y := by
  induction k generalizing x y with
  | zero => rfl
  | succ k ih => rw [divSteps, divStep_xor, ih, divSteps, divSteps]

/-- R68: on zero low bits the polynomial is never XORed in. -/
theorem divSteps_of_low_zero {w : Nat} (v : Config.Variant w) (k : Nat) (x : BitVec w) (h : ∀ j, j < k → x.getLsbD j = false) :
    divSteps v k x = x >>> k := by
  induction k generalizing x with
  | zero => rw [divSteps, BitVec.ushiftRight_zero]
  | succ k ih =>
    have hshift : divStep v x = x >>> 1 := by simp [divStep, h 0 k.succ_pos]
    have hlow : ∀ j, j < k → (x >>> 1).getLsbD j = false := fun j hj => by
      rw [BitVec.getLsbD_ushiftRight, Nat.add_comm]
      exact h (j + 1) (Nat.succ_lt_succ hj)
    rw [divSteps, hshift, ih _ hlow, ← BitVec.shiftRight_add, Nat.add_comm]

theorem divSteps_zero {w : Nat} (v : Config.Variant w) (k : Nat) : divSteps v k (0#w) = 0#w := by
  rw [divSteps_of_low_zero v k _ fun _ _ => BitVec.getLsbD_zero, BitVec.zero_ushiftRight]

/-- Settles O42, by induction on the number of steps. -/
theorem divisionStepsAreLinear : Obligations.DivisionStepsAreLinear :=
  fun _ v k x y => ⟨divSteps_xor v k x y, divSteps_zero v k⟩

/-- Settles O43; the bound on the number of steps is not needed. -/
theorem divisionStepsOnZeroLowBitsShift : Obligations.DivisionStepsOnZeroLowBitsShift :=
  fun _ v k x _ h => divSteps_of_low_zero v k x h

/-! ### The fold of CRC-16 in its direct form -/

/-- R48: a zero-extended byte has the byte's bits and zeros above them. -/
theorem getLsbD_zext16 (b : Byte) (i : Nat) : (zext16 b).getLsbD i = b.getLsbD i := by
  rw [zext16, BitVec.getLsbD_setWidth]
  by_cases hi : i < 16
  · rw [decide_eq_true hi, Bool.true_and]
  · rw [decide_eq_false hi, Bool.false_and, BitVec.getLsbD_of_ge b i (by omega)]

theorem getLsbD_lowByte (c : Word16) (i : Nat) : (lowByte c).getLsbD i = (decide (i < 8) && c.getLsbD i) := by
  rw [lowByte, BitVec.getLsbD_extractLsb', Nat.zero_add]

/-- The register without its low byte: eight steps only bring the high byte down. -/
theorem divSteps_highByte (v : Config.Variant 16) (c : Word16) :
    divSteps v 8 (c ^^^ zext16 (lowByte c)) = highByteDown c := by
  have hlow : ∀ j, j < 8 → (c ^^^ zext16 (lowByte c)).getLsbD j = false := fun j hj => by
    rw [BitVec.getLsbD_xor, getLsbD_zext16, getLsbD_lowByte, decide_eq_true hj, Bool.true_and, Bool.xor_self]
  rw [divSteps_of_low_zero v 8 _ hlow]
  refine BitVec.eq_of_getLsbD_eq fun i _ => ?_
  have hhigh : ¬8 + i < 8 := by omega
  rw [BitVec.getLsbD_ushiftRight, BitVec.getLsbD_xor, getLsbD_zext16, getLsbD_lowByte, decide_eq_false hhigh, Bool.false_and,
    Bool.xor_false, getLsbD_highByteDown, Nat.add_comm]

/-- R81: the side register computes eight steps of the whole register. -/
theorem fold16_eq_divSteps (c : Word16) (b : Byte) : fold16 c b = divSteps Config.arc 8 (c ^^^ b.setWidth 16) := by
  have hsplit : c ^^^ b.setWidth 16 = (c ^^^ zext16 (lowByte c)) ^^^ zext16 (lowByte c ^^^ b) := by
    rw [zext16_lowByte_xor, ← zext16_lowByte, BitVec.xor_assoc, ← BitVec.xor_assoc (zext16 _), BitVec.xor_self, BitVec.zero_xor]
  rw [hsplit, divSteps_xor, divSteps_highByte]
  rfl

/-- Settles O44: linearity takes the register apart into the high byte, which is shifted, and the byte that is divided. -/
theorem fold16EqualsDirectForm : Obligations.Fold16EqualsDirectForm := fold16_eq_divSteps

/-! ### The functions -/

theorem fold16_eq_generic : fold16 = genericFold Config.arc := funext fun c => funext fun b => fold16_eq_divSteps c b

/-- Settles O47: U16 by the direct form of its fold, U32 by the inversion as a XOR with all ones. -/
theorem genericRoutineComputesBoth : Obligations.GenericRoutineComputesBoth := by
  refine ⟨fun msg => ?_, fun msg => not_eq_xor_ones32 _⟩
  rw [compute16, raw16, reg16, fold16_eq_generic]
  rfl

/-- Settles O48: a fold over a list. -/
theorem foldingIsIncremental : Obligations.FoldingIsIncremental :=
  ⟨fun _ _ _ => List.foldl_append, fun _ _ _ => List.foldl_append⟩

/-- Settles O50: one byte is folded into INIT, which is 0 in U16. -/
theorem singleByteIsEightSteps : Obligations.SingleByteIsEightSteps := by
  refine ⟨fun b => ?_, fun b => rfl⟩
  have hraw : raw16 [b] = fold16 Config.arc.init b := rfl
  rw [compute16, xor_arc_xorout, hraw, fold16_eq_divSteps]
  exact congrArg _ BitVec.zero_xor

end Sys2Proof.Machine
end

section
/-! PROOFS. Transactions (R80, R99, R118), for both units at once.

What the two units differ in is the width of the register and the fold of a byte. With these named for both units, a transaction is one
development: an own step of a fold keeps the settled register, a word for the unit leads from one stage of the transaction to the
next, and every other step passes the unit by. -/

namespace Sys2Proof.Machine

/-! ### The units side by side -/

/-- R1: the width of a unit's register. -/
def width : UnitId → Nat
  | .u16 => 16
  | .u32 => 32

/-- R11: the register `crc` of a unit. -/
def crcOf : (u : UnitId) → State → BitVec (width u)
  | .u16, s => s.u16.crc
  | .u32, s => s.u32.crc

/-- The register of a unit once the steps of the fold it has left are taken. -/
def settledOf : (u : UnitId) → State → BitVec (width u)
  | .u16, s => settled16 s.u16
  | .u32, s => settled32 s.u32

/-- R80, R99: the effect of one byte on the register. -/
def foldOf : (u : UnitId) → BitVec (width u) → Byte → BitVec (width u)
  | .u16 => fold16
  | .u32 => fold32

/-- R117: the register of a message before the final transform. -/
def rawOf : (u : UnitId) → List Byte → BitVec (width u)
  | .u16 => raw16
  | .u32 => raw32

/-- R115, R116: the CRC of a message. -/
def computeOf : (u : UnitId) → List Byte → BitVec (width u)
  | .u16 => compute16
  | .u32 => compute32

/-- R19: the result port of a unit. -/
def resOf : (u : UnitId) → State → Option (BitVec (width u))
  | .u16 => res16
  | .u32 => res32

theorem resOf_of_done {s : State} : ∀ {u : UnitId}, s.phase u = .done → resOf u s = some (crcOf u s)
  | .u16 => res16_of_done
  | .u32 => res32_of_done

theorem crcOf_congr {s t : State} : ∀ {u : UnitId}, SameUnit u s t → crcOf u t = crcOf u s
  | .u16, h => congrArg Unit16.crc h
  | .u32, h => congrArg Unit32.crc h

theorem settledOf_congr {s t : State} : ∀ {u : UnitId}, SameUnit u s t → settledOf u t = settledOf u s
  | .u16, h => congrArg settled16 h
  | .u32, h => congrArg settled32 h

theorem settledOf_of_not_shift {s : State} : ∀ {u : UnitId}, s.phase u ≠ .shift → settledOf u s = crcOf u s
  | .u16, h => if_neg h
  | .u32, h => if_neg h

theorem settled16_of_shift {u : Unit16} (h : u.ph = .shift) :
    settled16 u = highByteDown u.crc ^^^ divSteps Config.arc u.cnt.toNat u.wrk := if_pos h

theorem settled32_of_shift {u : Unit32} (h : u.ph = .shift) : settled32 u = divSteps Config.isoHdlc u.cnt.toNat u.crc := if_pos h

theorem rawOf_eq_foldl : ∀ (u : UnitId) (msg : List Byte), rawOf u msg = msg.foldl (foldOf u) (rawOf u [])
  | .u16, _ => rfl
  | .u32, _ => rfl

theorem rawOf_append_byte (u : UnitId) (pre : List Byte) (b : Byte) : rawOf u (pre ++ [b]) = foldOf u (rawOf u pre) b := by
  rw [rawOf_eq_foldl, List.foldl_append, ← rawOf_eq_foldl]
  rfl

/-! ### The micro-operations -/

theorem crcOf_start (u : UnitId) (s : State) : crcOf u (microOp (instrOf u .start 0#8) s) = rawOf u [] := by cases u <;> rfl

/-- LOAD sets out on the fold of its byte. -/
theorem settledOf_byte (u : UnitId) (b : Byte) (s : State) : settledOf u (microOp (instrOf u .byte b) s) = foldOf u (crcOf u s) b := by
  cases u <;> rfl

/-- FINAL takes the register of a message to its CRC. -/
theorem crcOf_finish {s : State} {msg : List Byte} : ∀ {u : UnitId}, crcOf u s = rawOf u msg →
    crcOf u (microOp (instrOf u .finish 0#8) s) = computeOf u msg
  | .u16, h => congrArg (fun c : Word16 => c ^^^ Config.arc.xorout) h
  | .u32, h => congrArg (fun c : Word32 => ~~~c) h

/-- R139: the phase that the micro-operation of a command writes. -/
def phaseWritten : Op → Phase
  | .start => .active
  | .byte => .shift
  | .finish => .done

theorem phase_microOp (u : UnitId) (op : Op) (b : Byte) (s : State) : (microOp (instrOf u op b) s).phase u = phaseWritten op := by
  cases u <;> cases op <;> rfl

theorem microOp_other (u : UnitId) (op : Op) (b : Byte) (s : State) : SameUnit (otherUnit u) s (microOp (instrOf u op b) s) := by
  cases u <;> cases op <;> rfl

/-- START opens a transaction where none is open. -/
theorem allowed_start {u : UnitId} {p : Phase} (h : p = .idle ∨ p = .done) : allowedFor (instrOf u .start 0#8) p = true := by
  rw [allowedFor_eq_ite, instrOf_op, if_pos rfl]
  exact allowsStart_iff.2 h

/-- BYTE and FINISH are for an open one. -/
theorem allowed_in_active {u : UnitId} {op : Op} {b : Byte} (h : op ≠ .start) : allowedFor (instrOf u op b) .active = true := by
  rw [allowedFor_eq_ite, instrOf_op, if_neg h]
  rfl

/-- The word of an allowed command is its micro-operation. -/
theorem perform_encode {u : UnitId} {op : Op} {b : Byte} {s : State} (ha : allowedFor (instrOf u op b) (s.phase u) = true) :
    perform (decode (encode (instrOf u op b))) s = .next (microOp (instrOf u op b) s) := by
  rw [decode_encode]
  exact exec_allowed rfl (by rwa [instrOf_unit])

/-! ### A fold under way -/

/-- R80: an own step of U16 keeps the settled register. -/
theorem settled_ownStep16 {s t : State} (h : ownStep16 s = .next t) : settled16 t.u16 = settled16 s.u16 := by
  rcases ownStep16_cases s with ⟨_, e⟩ | ⟨hp, hc, e⟩ | ⟨hp, hc, e⟩ <;> rw [e] at h <;> cases h
  · rfl
  · rw [settled16_of_shift hp, hc]
    rfl
  · rw [settled16_of_shift (u := (bitStep16 s).u16) hp, settled16_of_shift hp, ← cnt_pred hc]
    rfl

/-- R99: so does one of U32. -/
theorem settled_ownStep32 {s t : State} (h : ownStep32 s = .next t) : settled32 t.u32 = settled32 s.u32 := by
  rcases ownStep32_cases s with ⟨_, e⟩ | ⟨_, _, e⟩ | ⟨hp, hc, e⟩ <;> rw [e] at h <;> cases h
  · rfl
  · by_cases hlast : s.u32.cnt = 1#4
    · have hactive : (bitStep32 s).u32.ph ≠ .shift := by simp [hlast]
      rw [settled32_of_shift hp, hlast]
      exact if_neg hactive
    · have hshift : (bitStep32 s).u32.ph = .shift := (if_neg hlast).trans hp
      rw [settled32_of_shift hshift, settled32_of_shift hp, ← cnt_pred hc]
      rfl

theorem settledOf_ownStep {s t : State} : ∀ {u : UnitId}, ownStep u s = .next t → settledOf u t = settledOf u s
  | .u16 => settled_ownStep16
  | .u32 => settled_ownStep32

theorem phase_ownStep {u : UnitId} {s t : State} (hs : s.phase u = .shift) (h : ownStep u s = .next t) :
    t.phase u = .active ∨ t.phase u = .shift := by
  have hphase : t.phase u = phaseAfterOwn u s := (ownStep_movesTo h).phase
  rw [hphase, phaseAfterOwn, hs]
  split
  · exact .inl rfl
  · exact .inr rfl

/-! ### The stages of a transaction -/

/-- R118: where a transaction of `msg` on unit `u` can be. -/
inductive TransactionOn (u : UnitId) (msg : List Byte) (s : State) : Prop
  /-- All its words are to come. -/
  | toCome (closed : s.phase u = .idle ∨ s.phase u = .done) (words : wordsFor u s.port = (expansion u msg).map encode)
  /-- The bytes `pre` are accepted, the words of `post` and FINISH are to come. -/
  | isOpen (pre post : List Byte) (split : msg = pre ++ post)
      (words : wordsFor u s.port = (post.map (instrOf u .byte) ++ [instrOf u .finish 0#8]).map encode)
      (phase : s.phase u = .active ∨ s.phase u = .shift) (register : settledOf u s = rawOf u pre)
  /-- It is over, with the result in DONE. -/
  | over (phase : s.phase u = .done) (words : wordsFor u s.port = []) (result : crcOf u s = computeOf u msg)

theorem transactionOn_iff (u : UnitId) (msg : List Byte) (s : State) : TransactionOn u msg s ↔
    ((s.phase u = .idle ∨ s.phase u = .done) ∧ wordsFor u s.port = (expansion u msg).map encode) ∨
    (∃ pre post, msg = pre ++ post ∧ wordsFor u s.port = (post.map (instrOf u .byte) ++ [instrOf u .finish 0#8]).map encode ∧
      (s.phase u = .active ∨ s.phase u = .shift) ∧ settledOf u s = rawOf u pre) ∨
    (s.phase u = .done ∧ wordsFor u s.port = [] ∧ crcOf u s = computeOf u msg) := by
  constructor
  · rintro (⟨hp, hw⟩ | ⟨pre, post, hm, hw, hp, hr⟩ | ⟨hp, hw, hr⟩)
    exacts [.inl ⟨hp, hw⟩, .inr (.inl ⟨pre, post, hm, hw, hp, hr⟩), .inr (.inr ⟨hp, hw, hr⟩)]
  · rintro (⟨hp, hw⟩ | ⟨pre, post, hm, hw, hp, hr⟩ | ⟨hp, hw, hr⟩)
    exacts [.toCome hp hw, .isOpen pre post hm hw hp hr, .over hp hw hr]

theorem transaction16_iff {msg : List Byte} {s : State} : Transaction16 msg s ↔ TransactionOn .u16 msg s :=
  (transactionOn_iff .u16 msg s).symm

theorem transaction32_iff {msg : List Byte} {s : State} : Transaction32 msg s ↔ TransactionOn .u32 msg s :=
  (transactionOn_iff .u32 msg s).symm

namespace TransactionOn

variable {u : UnitId} {msg : List Byte} {s t : State}

/-- What passes the unit by leaves its transaction where it is. -/
theorem of_passes (hT : TransactionOn u msg s) (kept : SameUnit u s t) (words : wordsFor u t.port = wordsFor u s.port) :
    TransactionOn u msg t := by
  have hphase := sameUnit_phase kept
  rcases hT with ⟨hp, hw⟩ | ⟨pre, post, hm, hw, hp, hr⟩ | ⟨hp, hw, hr⟩
  · exact .toCome (hphase ▸ hp) (words.trans hw)
  · exact .isOpen pre post hm (words.trans hw) (hphase ▸ hp) ((settledOf_congr kept).trans hr)
  · exact .over (hphase.trans hp) (words.trans hw) ((crcOf_congr kept).trans hr)

/-- A busy unit has an open transaction, and an own step goes on with the fold. -/
theorem of_ownStep (hT : TransactionOn u msg s) (hs : s.phase u = .shift) (h : ownStep u s = .next t) : TransactionOn u msg t := by
  rcases hT with ⟨hp, _⟩ | ⟨pre, post, hm, hw, _, hr⟩ | ⟨hp, _, _⟩
  · rw [hs] at hp
    simp at hp
  · have hport : t.port = s.port := (ownStep_port_fcause h).1
    exact .isOpen pre post hm (hport ▸ hw) (phase_ownStep hs h) ((settledOf_ownStep h).trans hr)
  · rw [hs] at hp
    cases hp

/-- The next word of the transaction leads to its next stage. -/
theorem of_word {w : CmdWord} {rest : List CmdWord} (hT : TransactionOn u msg s) (hp : s.port = w :: rest) (hu : unitOf w = u)
    (hs : s.phase u ≠ .shift) (h : perform (decode w) { s with port := rest } = .next t) : TransactionOn u msg t := by
  have hfirst : wordsFor u s.port = w :: wordsFor u rest := by rw [hp, wordsFor_cons, if_pos hu]
  have hport : wordsFor u t.port = wordsFor u rest := congrArg (wordsFor u) (perform_port h)
  have performs : ∀ {op : Op} {b : Byte}, w = encode (instrOf u op b) → allowedFor (instrOf u op b) (s.phase u) = true →
      t = microOp (instrOf u op b) { s with port := rest } := by
    rintro op b rfl ha
    rw [perform_encode (by simpa using ha)] at h
    exact (Host.Outcome.next.inj h).symm
  rcases hT with ⟨hclosed, hw⟩ | ⟨pre, post, hm, hw, hphase, hr⟩ | ⟨_, hw, _⟩
  · obtain ⟨hword, hrest⟩ := List.cons.inj (hfirst.symm.trans hw)
    have ht := performs hword (allowed_start hclosed)
    subst ht
    refine .isOpen [] msg rfl (hport.trans hrest) (.inl (phase_microOp u .start _ _)) ?_
    rw [settledOf_of_not_shift (by rw [phase_microOp]; nofun), crcOf_start]
  · have hactive : s.phase u = .active := hphase.resolve_right hs
    rw [settledOf_of_not_shift hs] at hr
    have hreg : crcOf u { s with port := rest } = rawOf u pre := (crcOf_congr (sameUnit_mk u s _ _ _)).trans hr
    cases post with
    | nil =>
      obtain ⟨hword, hrest⟩ := List.cons.inj (hfirst.symm.trans hw)
      have ht := performs hword (hactive ▸ allowed_in_active nofun)
      subst ht
      rw [List.append_nil] at hm
      exact .over (phase_microOp u .finish _ _) (hport.trans hrest) (hm ▸ crcOf_finish hreg)
    | cons b post =>
      obtain ⟨hword, hrest⟩ := List.cons.inj (hfirst.symm.trans hw)
      have ht := performs hword (hactive ▸ allowed_in_active nofun)
      subst ht
      refine .isOpen (pre ++ [b]) post (by simp [hm]) (hport.trans hrest) (.inr (phase_microOp u .byte _ _)) ?_
      rw [settledOf_byte, hreg, rawOf_append_byte]
  · rw [hw] at hfirst
    cases hfirst

/-- R118: every step but a reset keeps the transaction. -/
theorem step_keeps (hT : TransactionOn u msg s) (hr : isReset s.turn = false) (h : step s = .next t) : TransactionOn u msg t := by
  have hadv : TransactionOn u msg s.advance := hT.of_passes (sameUnit_mk u s _ _ _) rfl
  rcases step_unitEvent u hr h with ⟨kept, words, _⟩ | ⟨_, hs, hres⟩ | ⟨w, rest, _, hp, hu, hs, hres⟩
  · exact hT.of_passes kept words
  · exact hadv.of_ownStep (by simpa using hs) hres
  · exact hadv.of_word hp hu (by simpa using hs) hres

theorem phase_ne_fault (hT : TransactionOn u msg s) : s.phase u ≠ .fault := by
  rcases hT with ⟨hp | hp, _⟩ | ⟨_, _, _, _, hp | hp, _⟩ | ⟨hp, _, _⟩ <;> simp [hp]

/-- Once its words are accepted the transaction is over, and the result is shown. -/
theorem shows_result (hT : TransactionOn u msg s) (hw : wordsFor u s.port = []) :
    s.phase u = .done ∧ resOf u s = some (computeOf u msg) := by
  rcases hT with ⟨_, hw'⟩ | ⟨_, _, _, hw', _, _⟩ | ⟨hp, _, hr⟩
  · simp [hw, expansion] at hw'
  · simp [hw] at hw'
  · exact ⟨hp, (resOf_of_done hp).trans (congrArg some hr)⟩

end TransactionOn

/-- Settles O60: in every stage each event of the unit leads to a stage, and only in the last is no word left. -/
theorem transactionIsCarriedThrough : Obligations.TransactionIsCarriedThrough := by
  refine ⟨fun msg s h => ?_, fun msg s h => ?_⟩
  · have hT := transaction16_iff.1 h
    exact ⟨fun t hr hst => transaction16_iff.2 (hT.step_keeps hr hst), hT.phase_ne_fault, fun hw => (hT.shows_result hw).2⟩
  · have hT := transaction32_iff.1 h
    exact ⟨fun t hr hst => transaction32_iff.2 (hT.step_keeps hr hst), hT.phase_ne_fault, fun hw => (hT.shows_result hw).2⟩

/-! ### Runs without a reset -/

/-- What every step but a reset keeps, a run keeps from a state with the invariant over a schedule without a reset. -/
theorem run_keeps {P : State → Prop} (hP : ∀ s t, P s → isReset s.turn = false → step s = .next t → P t) (k : Nat) {s : State}
    (hi : StateInv s) (hs : P s) (hk : k ≤ s.sched.length) (hr : ∀ t ∈ s.sched, isReset t = false) :
    ∃ t, run k s = .next t ∧ StateInv t ∧ P t := by
  induction k generalizing s with
  | zero => exact ⟨s, rfl, hi, hs⟩
  | succ k ih =>
    obtain ⟨x, ts, hsched⟩ := List.exists_cons_of_length_pos (k.succ_pos.trans_le hk)
    obtain ⟨t, ht⟩ := step_total hi
    have htail : t.sched = ts := by rw [(step_ownFields ht).1, hsched, List.tail_cons]
    rw [run_succ ht]
    refine ih (step_keeps_inv hi ht) (hP s t hs ?_ ht) ?_ ?_
    · rw [turn_cons s x ts hsched]
      exact hr x (by simp [hsched])
    · rw [hsched, List.length_cons] at hk
      rw [htail]
      exact Nat.le_of_succ_le_succ hk
    · rw [htail]
      exact fun y hy => hr y (by simp [hsched, hy])

/-- R18: DONE with no cause reads 0b00010. -/
theorem statusWord_done {c : Control} (hp : c.ph = .done) (hc : c.fcause = 0#2) : statusWord c = 0b00010#5 := by
  unfold statusWord busy doneFlag flt
  rw [hp, hc]
  decide

/-- R118: a transaction runs to its result, whatever is scheduled and whatever stands between its words. -/
theorem transaction_runs {u : UnitId} {s : State} {msg : List Byte} (hi : StateInv s) (hclosed : s.phase u = .idle ∨ s.phase u = .done)
    (hw : wordsFor u s.port = (expansion u msg).map encode) (hr : ∀ t ∈ s.sched, isReset t = false) {k : Nat}
    (hk : k ≤ s.sched.length) : ∃ t, run k s = .next t ∧ badEnd u t = false ∧ (wordsFor u t.port = [] →
      goodEnd u t = true ∧ resOf u t = some (computeOf u msg) ∧ statusWord (t.ctl u) = 0b00010#5) := by
  obtain ⟨t, hrun, hinv, hT⟩ := run_keeps (fun _ _ h hr hst => h.step_keeps hr hst) k hi (TransactionOn.toCome hclosed hw) hk hr
  refine ⟨t, hrun, beq_eq_false_iff_ne.2 hT.phase_ne_fault, fun hnone => ?_⟩
  obtain ⟨hdone, hres⟩ := hT.shows_result hnone
  have hcause := (stateInv_iff.1 hinv u).fcause hT.phase_ne_fault
  exact ⟨beq_iff_eq.2 hdone, hres, statusWord_done hdone hcause⟩

/-- Settles O52: the words presented are the expansion's. -/
theorem transactionComputesCrc16 : Obligations.TransactionComputesCrc16 :=
  fun _ _ hi hclosed hw hr _ hk => transaction_runs (u := .u16) hi hclosed hw hr hk

/-- Settles O53: so are those of U32. -/
theorem transactionComputesCrc32 : Obligations.TransactionComputesCrc32 :=
  fun _ _ hi hclosed hw hr _ hk => transaction_runs (u := .u32) hi hclosed hw hr hk

/-- Settles O51: START and LOAD write every register of the unit but the cause, which is 0 outside FAULT. -/
theorem startErasesHistory : Obligations.StartErasesHistory := by
  have cause_zero : ∀ {u : UnitId} {s : State}, StateInv s → s.phase u = .idle ∨ s.phase u = .done → (s.ctl u).fcause = 0#2 := by
    intro u s hi hclosed
    exact (stateInv_iff.1 hi u).fcause (by rcases hclosed with h | h <;> simp [h])
  refine ⟨fun s s' b hi hi' hc hc' => ?_, fun s s' hi hi' hc hc' => ?_⟩
  · have h : s.u16.fcause = 0#2 := cause_zero (u := .u16) hi hc
    have h' : s'.u16.fcause = 0#2 := cause_zero (u := .u16) hi' hc'
    refine ⟨init16 s, init16 s', load16 b (init16 s), load16 b (init16 s'), exec_start16_of_closed hc, exec_start16_of_closed hc',
      exec_allowed rfl rfl, exec_allowed rfl rfl, ?_⟩
    simp [h, h']
  · have h : s.u32.fcause = 0#2 := cause_zero (u := .u32) hi hc
    have h' : s'.u32.fcause = 0#2 := cause_zero (u := .u32) hi' hc'
    exact ⟨init32 s, init32 s', exec_start32_of_closed hc, exec_start32_of_closed hc', by simp [h, h']⟩

end Sys2Proof.Machine
end

section
/-! PROOFS. The steps of a fold and of a transaction, counted (R80, R99, R118).

`RunsTo` says of a run what the counts need: where it ends, and that it has used up its words and turns and left the other unit. A fold
is its own turns, a byte is its command and its fold, a message is its bytes, and a transaction is START, a message and FINISH. -/

namespace Sys2Proof.Machine

/-- `n` steps lead from `s` to `t`: unit `u` to phase `p`, the other unit unchanged, `ws` left on the port and `ts` of the schedule. -/
structure RunsTo (n : Nat) (s t : State) (u : UnitId) (p : Phase) (ws : List CmdWord) (ts : List Config.Turn) : Prop where
  run : run n s = .next t
  phase : t.phase u = p
  other : SameUnit (otherUnit u) s t
  port : t.port = ws
  sched : t.sched = ts

theorem SameUnit.trans {u : UnitId} {r s t : State} (h : SameUnit u r s) (h' : SameUnit u s t) : SameUnit u r t := by
  cases u <;> exact Eq.trans h' h

theorem RunsTo.trans {m n : Nat} {r s t : State} {u : UnitId} {p q : Phase} {ws ws' : List CmdWord} {ts ts' : List Config.Turn}
    (h : RunsTo m r s u p ws ts) (h' : RunsTo n s t u q ws' ts') : RunsTo (m + n) r t u q ws' ts' :=
  ⟨(run_add n h.run).trans h'.run, h'.phase, h.other.trans h'.other, h'.port, h'.sched⟩

/-! ### The fold of a byte -/

/-- R80, R99: the own steps of a whole fold. -/
def foldLen : UnitId → Nat
  | .u16 => 9
  | .u32 => 8

theorem ownStepsLeft_byte (u : UnitId) (b : Byte) (s : State) : ownStepsLeft u (microOp (instrOf u .byte b) s) = foldLen u := by
  cases u <;> rfl

/-- In SHIFT the last own step is left exactly when the counter is where the fold ends. -/
theorem ownStepsLeft_eq_one_iff {s : State} : ∀ {u : UnitId}, s.phase u = .shift →
    (ownStepsLeft u s = 1 ↔ (s.ctl u).cnt = lastCnt u)
  | .u16, h => by
    rw [ownStepsLeft_u16 h, Nat.add_eq_right]
    exact (BitVec.toNat_eq (x := s.u16.cnt) (y := 0#4)).symm
  | .u32, h => by
    rw [ownStepsLeft_u32 h]
    exact (BitVec.toNat_eq (x := s.u32.cnt) (y := 1#4)).symm

/-- With a step left no own step stops. -/
theorem ownStep_of_stepsLeft {s : State} : ∀ {u : UnitId}, ownStepsLeft u s ≠ 0 → ∃ t, ownStep u s = .next t
  | .u16, _ => by rcases ownStep16_cases s with ⟨_, e⟩ | ⟨_, _, e⟩ | ⟨_, _, e⟩ <;> exact ⟨_, e⟩
  | .u32, h => by
    rcases ownStep32_cases s with ⟨_, e⟩ | ⟨hp, hc, _⟩ | ⟨_, _, e⟩
    · exact ⟨_, e⟩
    · rw [ownStepsLeft_u32 hp, hc] at h
      exact absurd rfl h
    · exact ⟨_, e⟩

/-- The counter is 0 once the fold has ended. -/
theorem cnt_of_last_ownStep {s t : State} : ∀ {u : UnitId}, s.phase u = .shift → (s.ctl u).cnt = lastCnt u → ownStep u s = .next t →
    (t.ctl u).cnt = 0#4
  | .u16, hs, hc, h => by
    rcases ownStep16_cases s with ⟨hq, _⟩ | ⟨_, _, e⟩ | ⟨_, hne, _⟩
    · exact absurd hs hq
    · rw [ownStep, e] at h
      cases h
      exact hc
    · exact absurd hc hne
  | .u32, hs, hc, h => by
    have hone : s.u32.cnt = 1#4 := hc
    rcases ownStep32_cases s with ⟨hq, _⟩ | ⟨_, _, e⟩ | ⟨_, _, e⟩
    · exact absurd hs hq
    · rw [ownStep, e] at h
      cases h
    · rw [ownStep, e] at h
      cases h
      simp [hone]

/-- A scheduled own turn of a unit with steps left, and what it keeps. -/
theorem run_own_turn {u : UnitId} {s : State} {ts : List Config.Turn} (hleft : ownStepsLeft u s ≠ 0) (hsched : s.sched = .own u :: ts) :
    ∃ t, ownStep u s.advance = .next t ∧ settledOf u t = settledOf u s ∧ RunsTo 1 s t u (t.phase u) s.port ts := by
  have hsame : SameUnit u s s.advance := sameUnit_mk u s _ _ _
  have hturn : s.turn = .own u := turn_cons s _ _ hsched
  obtain ⟨t, ht⟩ := ownStep_of_stepsLeft ((ownStepsLeft_congr hsame).trans_ne hleft)
  have hstep : step s = .next t := (step_own hturn).trans ht
  refine ⟨t, ht, (settledOf_ownStep ht).trans (settledOf_congr hsame), run_succ hstep, rfl, ?_, (ownStep_port_fcause ht).1, ?_⟩
  · exact sameUnit_of_concerns_other (by cases u <;> nofun) (.inl hturn) hstep
  · rw [(step_ownFields hstep).1, hsched, List.tail_cons]

/-- Before its last step a unit folding a byte is still in SHIFT. -/
theorem run_fold_busy {u : UnitId} (k : Nat) {n : Nat} {s : State} {ts : List Config.Turn} (hs : s.phase u = .shift)
    (hleft : ownStepsLeft u s = k + (n + 1)) (hsched : s.sched = List.replicate (k + (n + 1)) (.own u) ++ ts) :
    ∃ t, RunsTo k s t u .shift s.port (List.replicate (n + 1) (.own u) ++ ts) ∧ ownStepsLeft u t = n + 1 ∧
      settledOf u t = settledOf u s := by
  induction k generalizing s with
  | zero =>
    rw [Nat.zero_add] at hleft hsched
    exact ⟨s, ⟨rfl, hs, by cases u <;> rfl, rfl, hsched⟩, hleft, rfl⟩
  | succ k ih =>
    rw [Nat.add_right_comm] at hleft hsched
    have hsame : SameUnit u s s.advance := sameUnit_mk u s _ _ _
    obtain ⟨t, ht, hreg, hrun⟩ := run_own_turn (u := u) (by omega) hsched
    have hcount := (ownStep_counts (sameUnit_phase hsame ▸ hs) ht).trans (ownStepsLeft_congr hsame)
    have hshift : t.phase u = .shift := by
      by_contra hne
      rw [ownStepsLeft_eq_zero hne] at hcount
      omega
    obtain ⟨r, hrun', hleft', hreg'⟩ := ih hshift (by omega) hrun.sched
    refine ⟨r, ?_, hleft', hreg'.trans hreg⟩
    rw [hrun.port] at hrun'
    exact Nat.add_comm 1 k ▸ hrun.trans hrun'

/-- With its own turns scheduled, a unit takes as many of them as its fold has steps left, and ends in ACTIVE with the settled
register. -/
theorem run_fold {u : UnitId} {n : Nat} {s : State} {ts : List Config.Turn} (hs : s.phase u = .shift) (hleft : ownStepsLeft u s = n + 1)
    (hsched : s.sched = List.replicate (n + 1) (.own u) ++ ts) :
    ∃ t, RunsTo (n + 1) s t u .active s.port ts ∧ (t.ctl u).cnt = 0#4 ∧ crcOf u t = settledOf u s := by
  obtain ⟨r, hrun, hone, hreg⟩ := run_fold_busy (u := u) n (n := 0) hs hleft hsched
  have hsame : SameUnit u r r.advance := sameUnit_mk u r _ _ _
  have hs' : r.advance.phase u = .shift := sameUnit_phase hsame ▸ hrun.phase
  have hlast := (ownStepsLeft_eq_one_iff hs').1 ((ownStepsLeft_congr hsame).trans hone)
  obtain ⟨t, ht, hreg', hrun'⟩ := run_own_turn (u := u) (by omega) hrun.sched
  have hactive : t.phase u = .active := (ownStep_movesTo ht).phase.trans (phaseAfterOwn_ends hs' hlast)
  rw [hactive, hrun.port] at hrun'
  refine ⟨t, hrun.trans hrun', cnt_of_last_ownStep hs' hlast ht, ?_⟩
  rw [← settledOf_of_not_shift (by simp [hactive]), hreg', hreg]

/-- R80, R99: BYTE with the own turns of its fold scheduled. -/
theorem run_byte_fold {u : UnitId} {b : Byte} {s : State} {ts : List Config.Turn} (hp : s.phase u = .active)
    (hsched : s.sched = List.replicate (foldLen u) (.own u) ++ ts) :
    ∃ t, RunsTo (foldLen u) (microOp (instrOf u .byte b) s) t u .active s.port ts ∧ (t.ctl u).cnt = 0#4 ∧
      crcOf u t = foldOf u (crcOf u s) b := by
  obtain ⟨hport, hsched', _⟩ := microOp_ownFields (instrOf u .byte b) s
  have hlen : ∃ n, foldLen u = n + 1 := by cases u <;> exact ⟨_, rfl⟩
  obtain ⟨n, hn⟩ := hlen
  have hleft := ownStepsLeft_byte u b s
  rw [hn] at hsched hleft ⊢
  rw [← settledOf_byte, ← hport]
  exact run_fold (phase_microOp u .byte b s) hleft (hsched'.trans hsched)

/-- R80, R99: until then the unit is busy. -/
theorem run_byte_busy {u : UnitId} {b : Byte} {s : State} {ts : List Config.Turn} {k : Nat} (hk : k < foldLen u)
    (hsched : s.sched = List.replicate (foldLen u) (.own u) ++ ts) :
    ∃ t, run k (microOp (instrOf u .byte b) s) = .next t ∧ t.phase u = .shift := by
  obtain ⟨_, hsched', _⟩ := microOp_ownFields (instrOf u .byte b) s
  obtain ⟨n, hn⟩ := Nat.exists_eq_add_of_lt hk
  have hleft := ownStepsLeft_byte u b s
  rw [hn] at hsched hleft
  obtain ⟨t, hrun, _⟩ := run_fold_busy (u := u) k (phase_microOp u .byte b s) hleft (hsched'.trans hsched)
  exact ⟨t, hrun.run, hrun.phase⟩

/-- Settles O45; the fold is the rule's equation with the working value of LOAD16. -/
theorem byte16FoldsInNineSteps : Obligations.Byte16FoldsInNineSteps := by
  intro b s t ts hp h hsched
  rw [exec_allowed (i := .byte16 b) hp rfl] at h
  cases h
  refine ⟨fun k hk => run_byte_busy (u := .u16) hk hsched, ?_⟩
  obtain ⟨r, hrun, hcnt, hcrc⟩ := run_byte_fold (u := .u16) (b := b) hp hsched
  refine ⟨r, hrun.run, hrun.phase, hcnt, ?_, hrun.other, hrun.port, hrun.sched⟩
  rw [← zext16_lowByte_xor]
  exact hcrc

/-- Settles O46; LOAD32 has XORed the byte into the register that the fold divides. -/
theorem byte32FoldsInEightSteps : Obligations.Byte32FoldsInEightSteps := by
  intro b s t ts hp h hsched
  rw [exec_allowed (i := .byte32 b) hp rfl] at h
  cases h
  refine ⟨fun k hk => run_byte_busy (u := .u32) hk hsched, ?_⟩
  obtain ⟨r, hrun, hcnt, hcrc⟩ := run_byte_fold (u := .u32) (b := b) hp hsched
  exact ⟨r, hrun.run, hrun.phase, hcnt, hcrc, hrun.other, hrun.port, hrun.sched⟩

/-! ### A transaction -/

/-- The state in which the host's turn performs the word it has taken. -/
def State.taken (s : State) (ws : List CmdWord) (ts : List Config.Turn) : State :=
  { s with port := ws, sched := ts, tick := s.tick + 1 }

/-- A scheduled command in a phase that allows it. -/
theorem run_command {u : UnitId} {op : Op} {b : Byte} {s : State} {ws : List CmdWord} {ts : List Config.Turn}
    (ha : allowedFor (instrOf u op b) (s.phase u) = true) (hport : s.port = encode (instrOf u op b) :: ws)
    (hsched : s.sched = .command :: ts) :
    RunsTo 1 s (microOp (instrOf u op b) (s.taken ws ts)) u ((microOp (instrOf u op b) (s.taken ws ts)).phase u) ws ts := by
  have hs : s.phase u ≠ .shift := by
    intro hs
    rw [hs] at ha
    cases u <;> cases op <;> cases ha
  have htaken : { s.advance with port := ws } = s.taken ws ts := by simp [State.taken, State.advance, hsched]
  have hstep : step s = .next (microOp (instrOf u op b) (s.taken ws ts)) := by
    rw [step_command_cons (turn_cons s _ _ hsched) hport, unitOf_encode, instrOf_unit, if_neg hs, htaken,
      perform_encode (by simpa [State.taken] using ha)]
  obtain ⟨hport', hsched', _⟩ := microOp_ownFields (instrOf u op b) (s.taken ws ts)
  exact ⟨run_succ hstep, rfl, (sameUnit_mk _ s _ _ _).trans (microOp_other u op b _), hport', hsched'⟩

/-- The turns of one byte: its command and its fold. -/
def byteTurns (u : UnitId) : List Config.Turn := .command :: List.replicate (foldLen u) (.own u)

theorem run_byte {u : UnitId} {b : Byte} {s : State} {ws : List CmdWord} {ts : List Config.Turn} (hp : s.phase u = .active)
    (hport : s.port = encode (instrOf u .byte b) :: ws) (hsched : s.sched = byteTurns u ++ ts) :
    ∃ t, RunsTo (1 + foldLen u) s t u .active ws ts ∧ crcOf u t = foldOf u (crcOf u s) b := by
  have hrun := run_command (hp ▸ allowed_in_active nofun) hport hsched
  obtain ⟨t, hfold, _, hcrc⟩ := run_byte_fold (u := u) (b := b) (s := s.taken ws (List.replicate (foldLen u) (.own u) ++ ts))
    ((sameUnit_phase (sameUnit_mk u s _ _ _)).trans hp) rfl
  exact ⟨t, hrun.trans hfold, hcrc.trans (congrArg (foldOf u · b) (crcOf_congr (sameUnit_mk u s _ _ _)))⟩

theorem run_bytes {u : UnitId} (msg : List Byte) {s : State} {ws : List CmdWord} {ts : List Config.Turn} (hp : s.phase u = .active)
    (hport : s.port = (msg.map (instrOf u .byte)).map encode ++ ws) (hsched : s.sched = msg.flatMap (fun _ => byteTurns u) ++ ts) :
    ∃ t, RunsTo (msg.length * (1 + foldLen u)) s t u .active ws ts ∧ crcOf u t = msg.foldl (foldOf u) (crcOf u s) := by
  induction msg generalizing s with
  | nil =>
    rw [List.length_nil, Nat.zero_mul]
    exact ⟨s, ⟨rfl, hp, by cases u <;> rfl, hport, hsched⟩, rfl⟩
  | cons b msg ih =>
    rw [List.flatMap_cons, List.append_assoc] at hsched
    obtain ⟨r, hrun, hcrc⟩ := run_byte hp hport hsched
    obtain ⟨t, hrun', hcrc'⟩ := ih hrun.phase hrun.port hrun.sched
    refine ⟨t, ?_, ?_⟩
    · rw [List.length_cons, Nat.succ_mul, Nat.add_comm]
      exact hrun.trans hrun'
    · rw [hcrc', hcrc]
      rfl

/-- R118: START, the bytes with their folds, and FINISH, whatever stands behind them on the port and in the schedule. -/
theorem run_transaction {u : UnitId} {s : State} {msg : List Byte} {ws : List CmdWord} {ts : List Config.Turn}
    (hclosed : s.phase u = .idle ∨ s.phase u = .done) (hport : s.port = (expansion u msg).map encode ++ ws)
    (hsched : s.sched = .command :: (msg.flatMap (fun _ => byteTurns u) ++ .command :: ts)) :
    ∃ t, RunsTo (msg.length + 2 + foldLen u * msg.length) s t u .done ws ts ∧ resOf u t = some (computeOf u msg) := by
  rw [expansion, List.map_cons, List.cons_append, List.map_append, List.append_assoc] at hport
  have hstart := run_command (allowed_start hclosed) hport hsched
  obtain ⟨r, hbytes, hraw⟩ := run_bytes msg (hstart.phase.trans (phase_microOp u .start _ _)) hstart.port hstart.sched
  rw [crcOf_start, ← rawOf_eq_foldl] at hraw
  have hfinish := run_command (op := .finish) (hbytes.phase ▸ allowed_in_active nofun) hbytes.port hbytes.sched
  rw [phase_microOp] at hfinish
  have hlen : 1 + msg.length * (1 + foldLen u) + 1 = msg.length + 2 + foldLen u * msg.length := by ring
  have hcrc := crcOf_finish ((crcOf_congr (sameUnit_mk u r ws ts (r.tick + 1))).trans hraw)
  exact ⟨_, hlen ▸ (hstart.trans hbytes).trans hfinish, (resOf_of_done hfinish.phase).trans (congrArg some hcrc)⟩

/-- Settles O54: nine own turns or eight for each byte. -/
theorem transactionTakesItsSteps : Obligations.TransactionTakesItsSteps := by
  refine ⟨fun s msg ws ts hclosed hport hsched => ?_, fun s msg ws ts hclosed hport hsched => ?_⟩
  · obtain ⟨t, hrun, hres⟩ := run_transaction (u := .u16) hclosed hport hsched
    exact ⟨t, hrun.run, hrun.phase, hres, hrun.other, hrun.port, hrun.sched⟩
  · obtain ⟨t, hrun, hres⟩ := run_transaction (u := .u32) hclosed hport hsched
    exact ⟨t, hrun.run, hrun.phase, hres, hrun.other, hrun.port, hrun.sched⟩

end Sys2Proof.Machine
end

section
/-! PROOFS. Own steps of the two units commute (R42).

The own step of a unit is a function of that unit's registers, and it may stop only for U32. So the run over a schedule of own turns
is a chain of such functions, and two of them in a row may be exchanged. -/

namespace Sys2Proof.Machine

/-- R78, R79: U16's own step on its registers. -/
def own16 (x : Unit16) : Unit16 :=
  if x.ph = .shift then
    if x.cnt = 0#4 then { x with crc := highByteDown x.crc ^^^ x.wrk, ph := .active }
    else { x with wrk := divStep Config.arc x.wrk, cnt := x.cnt - 1#4 }
  else x

/-- R98: U32's own step on its registers; none where the model stops (log 5). -/
def own32 (x : Unit32) : Option Unit32 :=
  if x.ph = .shift then
    if x.cnt = 0#4 then none
    else some { x with
      crc := divStep Config.isoHdlc x.crc
      cnt := x.cnt - 1#4
      ph := if x.cnt = 1#4 then .active else x.ph }
  else some x

theorem ownStep16_eq (s : State) : ownStep16 s = .next { s with u16 := own16 s.u16 } := by
  rcases ownStep16_cases s with ⟨hp, e⟩ | ⟨hp, hc, e⟩ | ⟨hp, hc, e⟩ <;> rw [e, own16]
  · rw [if_neg hp]
  · rw [if_pos hp, if_pos hc, foldStep16]
  · rw [if_pos hp, if_neg hc, bitStep16]

/-- An outcome of own steps: the model's own fault is the only way to stop. -/
def outcomeOf : Option State → Host.Outcome State Fault Refusal
  | some t => .next t
  | none => .fault .cntUnderflow32

theorem ownStep32_eq (s : State) : ownStep32 s = outcomeOf ((own32 s.u32).map fun x => { s with u32 := x }) := by
  rcases ownStep32_cases s with ⟨hp, e⟩ | ⟨hp, hc, e⟩ | ⟨hp, hc, e⟩ <;> rw [e, own32]
  · rw [if_neg hp]
    rfl
  · rw [if_pos hp, if_pos hc]
    rfl
  · rw [if_pos hp, if_neg hc]
    rfl

/-- A step of unit `u`'s own turn, but for the schedule. -/
def ownAct (s : State) : UnitId → Option State
  | .u16 => some { s with u16 := own16 s.u16, tick := s.tick + 1 }
  | .u32 => (own32 s.u32).map fun x => { s with u32 := x, tick := s.tick + 1 }

theorem step_own_turn (u : UnitId) (s : State) (ts : List Config.Turn) :
    step { s with sched := .own u :: ts } = outcomeOf ((ownAct s u).map fun t => { t with sched := ts }) := by
  rw [step_own (u := u) rfl]
  cases u with
  | u16 => exact ownStep16_eq _
  | u32 =>
    rw [ownStep, ownStep32_eq, ownAct, Option.map_map]
    rfl

/-- A run over own turns is the chain of their actions. -/
theorem run_own_turns (us : List UnitId) (s : State) (rest : List Config.Turn) :
    run us.length { s with sched := us.map .own ++ rest } = outcomeOf ((us.foldlM ownAct s).map fun t => { t with sched := rest }) := by
  induction us generalizing s with
  | nil => rfl
  | cons u us ih =>
    have hstep := step_own_turn u s (us.map .own ++ rest)
    rw [List.foldlM_cons, List.length_cons, List.map_cons, List.cons_append]
    cases hact : ownAct s u with
    | none =>
      rw [hact] at hstep
      rw [run, hstep]
      rfl
    | some t =>
      rw [hact] at hstep
      exact (run_succ hstep).trans (ih t)

/-- R42: the actions of the two units may be exchanged, the model's fault included. -/
theorem ownAct_comm (s : State) (u v : UnitId) : (ownAct s u).bind (ownAct · v) = (ownAct s v).bind (ownAct · u) := by
  cases u <;> cases v
  case u16.u16 | u32.u32 => rfl
  all_goals
    simp only [ownAct, Option.bind_some]
    cases own32 s.u32 <;> rfl

theorem foldlM_ownAct_perm {us vs : List UnitId} (h : us.Perm vs) (s : State) : us.foldlM ownAct s = vs.foldlM ownAct s := by
  induction h generalizing s with
  | nil => rfl
  | cons u _ ih =>
    simp only [List.foldlM_cons]
    exact congrArg _ (funext ih)
  | swap u v us =>
    simp only [List.foldlM_cons, Option.bind_eq_bind, ← Option.bind_assoc, ownAct_comm s u v]
  | trans _ _ ih ih' => rw [ih, ih']

/-- A list of own turns is one of units. -/
theorem exists_units {a : List Config.Turn} (h : ∀ t ∈ a, ∃ u, t = .own u) : ∃ us : List UnitId, us.map .own = a := by
  have hrange : a ∈ Set.range (List.map Config.Turn.own) := by
    rw [Set.range_list_map]
    exact fun t ht => (h t ht).imp fun _ => Eq.symm
  exact hrange

/-- Settles O29: both runs are chains of the same actions in another order. -/
theorem ownTurnsCommute : Obligations.OwnTurnsCommute := by
  intro s a b rest ha hab
  obtain ⟨us, rfl⟩ := exists_units ha
  obtain ⟨vs, rfl⟩ := exists_units fun t ht => ha t (hab.mem_iff.2 ht)
  have hperm : us.Perm vs := (List.map_perm_map_iff fun _ _ => Config.Turn.own.inj).1 hab
  rw [List.length_map, List.length_map, run_own_turns, run_own_turns, foldlM_ownAct_perm hperm]

end Sys2Proof.Machine
end

section
/-! PROOFS. What the host sees (R22), and the model's own fields at a reset (log 3, log 4). -/

namespace Sys2Proof.Machine

/-- R18: the status word is a function of the phase and the cause. -/
theorem statusWord_congr {c d : Control} (hp : c.ph = d.ph) (hc : c.fcause = d.fcause) : statusWord c = statusWord d := by
  simp only [statusWord, busy, doneFlag, flt, hp, hc]

/-- R19: the result port is a function of the phase, and of `crc` in DONE. -/
theorem res16_congr {s t : State} (hp : s.u16.ph = t.u16.ph) (hc : s.u16.ph = .done → s.u16.crc = t.u16.crc) : res16 s = res16 t := by
  by_cases hd : s.u16.ph = .done
  · rw [res16_of_done hd, res16_of_done (hp ▸ hd), hc hd]
  · rw [res16_of_ne_done hd, res16_of_ne_done (hp ▸ hd)]

theorem res32_congr {s t : State} (hp : s.u32.ph = t.u32.ph) (hc : s.u32.ph = .done → s.u32.crc = t.u32.crc) : res32 s = res32 t := by
  by_cases hd : s.u32.ph = .done
  · rw [res32_of_done hd, res32_of_done (hp ▸ hd), hc hd]
  · rw [res32_of_ne_done hd, res32_of_ne_done (hp ▸ hd)]

/-- R56: the handshake is a function of the port and the phases. -/
theorem cmdAccept_congr {s t : State} (hport : s.port = t.port) (hp : ∀ u, s.phase u = t.phase u) : cmdAccept s = cmdAccept t := by
  rw [Bool.eq_iff_iff, cmdAccept_iff, cmdAccept_iff]
  simp only [hport, hp]

/-- Settles O39: each read is a function of the ports, the phases, the causes and the registers shown. -/
theorem intermediateRegistersAreHidden : Obligations.IntermediateRegistersAreHidden := by
  intro s t hport hp16 hc16 hp32 hc32 hcrc16 hcrc32
  have hcmd : cmd s = cmd t := congrArg List.head? hport
  refine ⟨statusWord_congr hp16 hc16, statusWord_congr hp32 hc32, ?_, ?_, congrArg Option.isSome hcmd, hcmd,
    cmdAccept_congr hport fun u => u.casesOn hp16 hp32⟩
  · rw [readRes16, readRes16, res16_congr hp16 hcrc16]
  · rw [readRes32, readRes32, res32_congr hp32 hcrc32]

/-- Settles O24: a reset step takes off the port what the host gives up and nothing else. -/
theorem resetTurnKeepsTheOtherWords : Obligations.ResetTurnKeepsTheOtherWords :=
  ⟨fun s n ht => ⟨resetStep n s.advance, step_resetTurn ht, rfl, rfl, rfl⟩, rfl⟩

end Sys2Proof.Machine
end

section
/-! PROOFS. Progress (R176): the work that is left goes down, and fairness ends every fold.

A turn is enabled if it can do something. An enabled turn takes one off the work that is left, and any other changes nothing, so the
work goes on until no turn is enabled, and that is when none is left. Endless runs are followed as sequences of states in which the
schedule field is left open, so that the runs under a given schedule and the machine's own runs are sequences of one kind. -/

namespace Sys2Proof.Machine

/-! ### The schedule is not read but for the turn -/

/-- Where `f` goes on, it neither reads nor writes the schedule. -/
def IgnoresSched (f : State → Host.Outcome State Fault Refusal) : Prop :=
  ∀ ts s t, f s = .next t → f { s with sched := ts } = .next { t with sched := ts }

theorem acceptAt_ignoresSched {u : UnitId} {judge : Phase → State → State}
    (hj : ∀ p s ts, judge p { s with sched := ts } = { judge p s with sched := ts }) : IgnoresSched (acceptAt u judge) := by
  intro ts s t h
  rcases acceptAt_cases u judge s with ⟨hp, e⟩ | ⟨hs, hf, e⟩ <;> rw [e] at h <;> cases h
  · exact acceptAt_idles (by simpa using hp)
  · rw [acceptAt_judges (by simpa using hs) (by simpa using hf), sameUnits_phase, hj]

theorem perform_ignoresSched (d : Decoded) : IgnoresSched (perform d) := by
  have raise : ∀ (u : UnitId) (c : Cause) s ts, raiseFault u c { s with sched := ts } = { raiseFault u c s with sched := ts } := by
    intro u c s ts
    cases u <;> rfl
  cases d with
  | legal i =>
    intro ts s t h
    rw [perform, exec_eq_accept] at h ⊢
    refine acceptAt_ignoresSched (fun p s ts => ?_) ts s t h
    dsimp only
    split
    · cases i <;> rfl
    · exact raise _ _ s ts
  | reserved u k => exact acceptAt_ignoresSched fun _ => raise u _

theorem commandTurn_ignoresSched : IgnoresSched commandTurn := by
  intro ts s t h
  by_cases hnil : s.port = []
  · rw [commandTurn, hnil] at h
    cases h
    rw [commandTurn, hnil]
  · obtain ⟨w, rest, hp⟩ := List.exists_cons_of_ne_nil hnil
    rw [commandTurn_cons hp] at h
    rw [commandTurn_cons (s := { s with sched := ts }) hp, sameUnits_phase]
    split at h
    case isTrue hs =>
      cases h
      exact if_pos hs
    case isFalse hs => exact (if_neg hs).trans (perform_ignoresSched _ ts _ t h)

theorem ownStep_ignoresSched : ∀ u, IgnoresSched (ownStep u)
  | .u16, ts, s, t, h => by
    rw [ownStep, ownStep16_eq] at h ⊢
    cases h
    rfl
  | .u32, ts, s, t, h => by
    rw [ownStep, ownStep32_eq] at h ⊢
    cases hx : own32 s.u32 <;> rw [hx] at h <;> cases h
    rfl

theorem takeTurn_ignoresSched : ∀ r, IgnoresSched (takeTurn r)
  | .command => commandTurn_ignoresSched
  | .own u => ownStep_ignoresSched u
  | .reset _ => fun _ _ _ h => by
    cases h
    rfl

/-- A scheduled step does the same whatever is scheduled behind it. -/
theorem step_withSched {r : Config.Turn} {ts ts' : List Config.Turn} {s t : State} (h : step { s with sched := r :: ts } = .next t) :
    step { s with sched := r :: ts' } = .next { t with sched := ts' } :=
  takeTurn_ignoresSched r ts' _ t h

/-- So does a scheduled run. -/
theorem run_append {n : Nat} {ts : List Config.Turn} (ts' : List Config.Turn) {s t : State} (hn : ts.length = n)
    (h : run n { s with sched := ts } = .next t) : run n { s with sched := ts ++ ts' } = .next { t with sched := ts' } := by
  subst hn
  induction ts generalizing s with
  | nil =>
    cases h
    rfl
  | cons r ts ih =>
    cases e : step { s with sched := r :: ts } with
    | next x =>
      have htail : x.sched = ts := (step_ownFields e).1
      have hsched : { x with sched := ts } = x := by rw [← htail]
      rw [List.length_cons, run_succ e, ← hsched] at h
      rw [List.cons_append, List.length_cons, run_succ (step_withSched e)]
      exact ih h
    | fault f => simp [run, e] at h
    | refused f => simp [run, e] at h

theorem run_one (s : State) : run 1 s = step s := by
  rw [run]
  cases step s <;> rfl

/-- R135: from a state with the invariant no run stops. -/
theorem run_total {s : State} (hi : StateInv s) (k : Nat) : ∃ t, run k s = .next t ∧ StateInv t := by
  induction k generalizing s with
  | zero => exact ⟨s, rfl, hi⟩
  | succ k ih =>
    obtain ⟨t, ht⟩ := step_total hi
    rw [run_succ ht]
    exact ih (step_keeps_inv hi ht)

/-! ### Endless runs as sequences of states -/

/-- The step that turn `r` makes from `s` to `t`, whatever schedule gives it the turn. -/
def Moves (r : Config.Turn) (s t : State) : Prop :=
  ∃ ts, State.turn { s with sched := ts } = r ∧ step { s with sched := ts } = .next t

/-- The states `x` of an endless run in which the turns `τ` are taken. -/
def IsTrace (τ : Nat → Config.Turn) (x : Nat → State) : Prop :=
  ∀ m, Moves (τ m) (x m) (x (m + 1))

/-- The run under an endless schedule. -/
theorem exists_trace_under (σ : Nat → Config.Turn) {s : State} (hi : StateInv s) :
    ∃ x, IsTrace σ x ∧ ∀ m, runUnder σ m s = .next (x m) ∧ StateInv (x m) := by
  choose x hx using fun m => run_total (s := { s with sched := (List.range m).map σ }) hi m
  refine ⟨x, fun m => ⟨[σ m], rfl, ?_⟩, hx⟩
  have hm := run_append [σ m] (by simp) (hx m).1
  rw [← run_one, ← run_add 1 hm, ← (hx (m + 1)).1, List.range_succ, List.map_append]
  rfl

/-- The machine's own run. -/
theorem exists_trace_own {s : State} (hi : StateInv s) :
    ∃ x : Nat → State, x 0 = s ∧ (∀ m, step (x m) = .next (x (m + 1))) ∧ ∀ m, run m s = .next (x m) ∧ StateInv (x m) := by
  choose x hx using run_total hi
  refine ⟨x, (Host.Outcome.next.inj (hx 0).1).symm, fun m => ?_, hx⟩
  rw [← run_one, ← run_add 1 (hx m).1, (hx (m + 1)).1]

theorem moves_of_step {s t : State} (h : step s = .next t) : Moves s.turn s t := ⟨s.sched, rfl, h⟩

/-! ### Every fold ends -/

/-- A step in which the unit stays in SHIFT takes off the steps left as many as it takes of them; a reset would end the fold. -/
theorem Moves.stepsLeft {r : Config.Turn} {u : UnitId} {s t : State} (h : Moves r s t) (hs : s.phase u = .shift)
    (ht : t.phase u = .shift) : ownStepsLeft u t + (if r = .own u then 1 else 0) = ownStepsLeft u s := by
  obtain ⟨ts, rfl, hstep⟩ := h
  have hsame : SameUnit u s { s with sched := ts } := sameUnit_mk u s _ _ _
  cases hr : isReset (State.turn { s with sched := ts }) with
  | true =>
    obtain ⟨_, hidle, _⟩ := step_reset u hr hstep
    rw [hidle] at ht
    cases ht
  | false =>
    obtain ⟨hown, hkept⟩ := step_busy (u := u) hr ((sameUnit_phase hsame).trans hs) hstep
    rw [← ownStepsLeft_congr hsame]
    split
    case isTrue hturn => exact hown hturn
    case isFalse hturn => exact ownStepsLeft_congr (hkept hturn)

/-- R176: where a unit that stays in SHIFT gets a turn, it is again and again out of SHIFT. -/
theorem IsTrace.leaves_shift {τ : Nat → Config.Turn} {x : Nat → State} {u : UnitId} (h : IsTrace τ x)
    (fair : ∀ n, (∀ m, n ≤ m → (x m).phase u = .shift) → ∃ m, n ≤ m ∧ τ m = .own u) (n : Nat) :
    ∃ m, n ≤ m ∧ (x m).phase u ≠ .shift := by
  by_contra! hstays
  have hcount : ∀ m, n ≤ m → ownStepsLeft u (x (m + 1)) + (if τ m = .own u then 1 else 0) = ownStepsLeft u (x m) :=
    fun m hm => (h m).stepsLeft (hstays m hm) (hstays (m + 1) (hm.trans m.le_succ))
  have hanti : Antitone fun j => ownStepsLeft u (x (n + j)) :=
    antitone_nat_of_succ_le fun j => (Nat.le_add_right _ _).trans (hcount (n + j) (Nat.le_add_right n j)).le
  have hleast := fun m => Function.argmin_le (fun j => ownStepsLeft u (x (n + j))) m
  set j := Function.argmin fun j => ownStepsLeft u (x (n + j))
  obtain ⟨m, hm, hown⟩ := fair (n + j) fun m hm => hstays m (by omega)
  obtain ⟨i, rfl⟩ := Nat.exists_eq_add_of_le ((Nat.le_add_right n j).trans hm)
  have hdrop := hcount (n + i) (Nat.le_add_right n i)
  rw [if_pos hown] at hdrop
  have hle : ownStepsLeft u (x (n + i)) ≤ ownStepsLeft u (x (n + j)) := hanti (by omega)
  have hmin : ownStepsLeft u (x (n + j)) ≤ ownStepsLeft u (x (n + (i + 1))) := hleast (i + 1)
  rw [← Nat.add_assoc] at hmin
  omega

/-- Weak fairness, read off the sequence of states. -/
theorem WeaklyFair.on_trace {u : UnitId} {σ : Nat → Config.Turn} {s : State} {x : Nat → State} (hfair : WeaklyFair u σ s)
    (hx : ∀ m, runUnder σ m s = .next (x m) ∧ StateInv (x m)) (n : Nat) (hs : ∀ m, n ≤ m → (x m).phase u = .shift) :
    ∃ m, n ≤ m ∧ σ m = .own u :=
  hfair n fun m hm => ⟨x m, (hx m).1, hs m hm⟩

/-- R56: a word that cannot be accepted stays on the port in every step but a reset. -/
theorem step_holds_port {s t : State} (hr : isReset s.turn = false) (ha : cmdAccept s = false) (h : step s = .next t) :
    t.port = s.port := by
  cases ht : s.turn with
  | reset n =>
    rw [ht] at hr
    cases hr
  | own u => exact (ownStep_port_fcause ((step_own ht).symm.trans h)).1
  | command =>
    obtain ⟨_, _, hheld⟩ := busyUnitHoldsThePort s
    rw [hheld ht ha] at h
    cases h
    rfl

/-- R176: a word on the port stays there until it can be accepted. -/
theorem IsTrace.accepts {σ : Nat → Config.Turn} {x : Nat → State} {w : CmdWord} {rest : List CmdWord} (h : IsTrace σ x)
    (hreset : ∀ n, isReset (σ n) = false) (hport : (x 0).port = w :: rest)
    (hleaves : ∃ m, (x m).phase (unitOf w) ≠ .shift) : ∃ m, (x m).port = w :: rest ∧ cmdAccept (x m) = true := by
  by_contra! hnever
  have hstays : ∀ m, (x m).port = w :: rest := by
    intro m
    induction m with
    | zero => exact hport
    | succ m ih =>
      obtain ⟨ts, hturn, hstep⟩ := h m
      have ha : cmdAccept { x m with sched := ts } = false :=
        (cmdAccept_congr rfl (sameUnits_phase (x m) _ _ _)).trans (eq_false_of_ne_true (hnever m ih))
      exact (step_holds_port (by rw [hturn]; exact hreset m) ha hstep).trans ih
  obtain ⟨m, hm⟩ := hleaves
  exact hnever m (hstays m) ((cmdAccept_cons (hstays m)).2 hm)

/-- Past the end of its schedule the machine's own run takes the turns of the fair free schedule. -/
theorem own_trace_turn {s : State} {x : Nat → State} (h0 : x 0 = s) (h : ∀ m, step (x m) = .next (x (m + 1))) {m : Nat}
    (hm : s.sched.length ≤ m) : (x m).turn = fairTurn (s.tick + m) := by
  have hfields : ∀ k, (x k).sched = s.sched.drop k ∧ (x k).tick = s.tick + k := by
    intro k
    induction k with
    | zero => exact ⟨by rw [h0, List.drop_zero], by rw [h0, Nat.add_zero]⟩
    | succ k ih =>
      obtain ⟨hsched, htick⟩ := step_ownFields (h k)
      rw [hsched, htick, ih.1, ih.2, List.tail_drop]
      exact ⟨rfl, rfl⟩
  rw [turn_nil ((hfields m).1.trans (List.drop_of_length_le hm)), (hfields m).2]

/-- R176: in the machine's own run the turn of each unit comes again and again. -/
theorem own_trace_fair {s : State} {x : Nat → State} (h0 : x 0 = s) (h : ∀ m, step (x m) = .next (x (m + 1))) (u : UnitId) (n : Nat) :
    ∃ m, n ≤ m ∧ (x m).turn = .own u := by
  obtain ⟨k, hk, hown⟩ := fairTurn_recurs u (s.tick + max n s.sched.length)
  obtain ⟨m, rfl⟩ := Nat.exists_eq_add_of_le ((Nat.le_add_right _ _).trans hk)
  exact ⟨m, by omega, (own_trace_turn h0 h (by omega)).trans hown⟩

/-- Settles O59: both kinds of run are sequences in which a unit that stays in SHIFT gets a turn, and the held word waits for its unit. -/
theorem fairnessEndsEveryFold : Obligations.FairnessEndsEveryFold := by
  refine ⟨fun s σ u n hi hfair => ?_, fun s σ w rest hi hport hfair hreset => ?_, fun s u n hi => ?_, fun s u hi => ?_⟩
  · obtain ⟨x, htrace, hx⟩ := exists_trace_under σ hi
    obtain ⟨m, hm, hleaves⟩ := htrace.leaves_shift (hfair.on_trace hx) n
    exact ⟨m, x m, hm, (hx m).1, hleaves⟩
  · obtain ⟨x, htrace, hx⟩ := exists_trace_under σ hi
    have hstart : (x 0).port = s.port := by rw [← Host.Outcome.next.inj (hx 0).1]
    obtain ⟨m, _, hleaves⟩ := htrace.leaves_shift (hfair.on_trace hx) 0
    obtain ⟨k, hk, ha⟩ := htrace.accepts hreset (hstart.trans hport) ⟨m, hleaves⟩
    exact ⟨k, x k, (hx k).1, hk, ha⟩
  · obtain ⟨x, h0, hstep, hx⟩ := exists_trace_own hi
    obtain ⟨m, hm, hown⟩ := own_trace_fair h0 hstep u n
    exact ⟨m, x m, hm, (hx m).1, hown⟩
  · obtain ⟨x, h0, hstep, hx⟩ := exists_trace_own hi
    have htrace : IsTrace (fun m => (x m).turn) x := fun m => moves_of_step (hstep m)
    obtain ⟨m, _, hleaves⟩ := htrace.leaves_shift (fun n _ => own_trace_fair h0 hstep u n) 0
    exact ⟨m, x m, (hx m).1, hleaves⟩

/-! ### The work that is left -/

/-- The own steps left, and ten steps for each word on the port. -/
def work (s : State) : Nat :=
  ownStepsLeft .u16 s + ownStepsLeft .u32 s + 10 * s.port.length

/-- The turn can do something: the host's word can be accepted, or the unit has an own step. -/
def Enabled (s : State) : Config.Turn → Prop
  | .command => cmdAccept s = true
  | .own u => s.phase u = .shift
  | .reset _ => False

/-- The units and the words to present are the same. -/
structure SameBlock (s t : State) : Prop where
  unit : ∀ u, SameUnit u s t
  port : t.port = s.port

theorem SameBlock.work {s t : State} (h : SameBlock s t) : work t = work s := by
  rw [Machine.work, ownStepsLeft_congr (h.unit .u16), ownStepsLeft_congr (h.unit .u32), h.port, Machine.work]

theorem SameBlock.enabled {s t : State} (h : SameBlock s t) : ∀ r, Enabled t r ↔ Enabled s r
  | .command => by rw [Enabled, Enabled, cmdAccept_congr h.port fun u => sameUnit_phase (h.unit u)]
  | .own u => by rw [Enabled, Enabled, sameUnit_phase (h.unit u)]
  | .reset _ => Iff.rfl

theorem SameBlock.trans {r s t : State} (h : SameBlock r s) (h' : SameBlock s t) : SameBlock r t :=
  ⟨fun u => (h.unit u).trans (h'.unit u), h'.port.trans h.port⟩

theorem sameBlock_mk (s : State) (ts : List Config.Turn) (n : Nat) : SameBlock s (State.mk s.u16 s.u32 s.port ts n) :=
  ⟨fun u => sameUnit_mk u s _ _ _, rfl⟩

/-- The work seen from one unit. -/
theorem work_eq (u : UnitId) (s : State) : work s = ownStepsLeft u s + ownStepsLeft (otherUnit u) s + 10 * s.port.length := by
  cases u
  · rfl
  · rw [work, Nat.add_comm (ownStepsLeft .u16 s)]
    rfl

/-- R26: a unit never has more than nine steps left. -/
theorem ownStepsLeft_le {u : UnitId} {s : State} (hi : UnitInv u s) : ownStepsLeft u s ≤ 9 := by
  by_cases hs : s.phase u = .shift
  · cases u with
    | u16 =>
      obtain ⟨hle, _⟩ := hi.folding16 hs
      rw [ownStepsLeft_u16 hs]
      omega
    | u32 =>
      obtain ⟨_, hle⟩ := hi.folding32 hs
      rw [ownStepsLeft_u32 hs]
      omega
  · rw [ownStepsLeft_eq_zero hs]
    exact Nat.zero_le 9

/-- While work is left some turn is enabled. -/
theorem exists_enabled {s : State} (h : work s ≠ 0) : ∃ r, (r = .command ∨ ∃ u, r = .own u) ∧ Enabled s r := by
  by_cases hs : ∃ u, s.phase u = .shift
  · obtain ⟨u, hu⟩ := hs
    exact ⟨.own u, .inr ⟨u, rfl⟩, hu⟩
  · rw [not_exists] at hs
    refine ⟨.command, .inl rfl, (cmdAccept_iff s).2 ?_⟩
    rw [work, ownStepsLeft_eq_zero (hs .u16), ownStepsLeft_eq_zero (hs .u32)] at h
    cases hp : s.port with
    | nil => simp [hp] at h
    | cons w rest => exact ⟨w, rest, rfl, hs _⟩

/-- R26: when none is left, no word is on the port and no unit is busy. -/
theorem finished_of_no_work {s : State} (hi : StateInv s) (h : work s = 0) : s.port = [] ∧ s.u16.ph ≠ .shift ∧ s.u32.ph ≠ .shift := by
  rw [work] at h
  refine ⟨List.length_eq_zero_iff.1 (by omega), fun hs => ?_, fun hs => ?_⟩
  · rw [ownStepsLeft_u16 hs] at h
    omega
  · obtain ⟨hpos, _⟩ := (stateInv_iff.1 hi .u32).folding32 hs
    rw [ownStepsLeft_u32 hs] at h
    omega

/-- A turn that is not enabled changes nothing. -/
theorem step_idle {s t : State} (hr : isReset s.turn = false) (he : ¬Enabled s s.turn) (h : step s = .next t) : SameBlock s t := by
  have hadv : step s = .next s.advance := by
    cases ht : s.turn with
    | reset n =>
      rw [ht] at hr
      cases hr
    | own u =>
      rw [ht] at he
      exact step_own_quiet ht he
    | command =>
      rw [ht] at he
      obtain ⟨_, _, hheld⟩ := busyUnitHoldsThePort s
      exact hheld ht (eq_false_of_ne_true he)
  rw [hadv] at h
  cases h
  exact sameBlock_mk s _ _

/-- An enabled turn takes work off: an own step is one of those left, and a word leaves the port for at most nine of them. -/
theorem step_works {s t : State} (hi : StateInv s) (he : Enabled s s.turn) (h : step s = .next t) : work t < work s := by
  cases ht : s.turn with
  | reset n =>
    rw [ht] at he
    exact he.elim
  | own u =>
    rw [ht] at he
    have hres := (step_own ht).symm.trans h
    have hcount := (step_busy (u := u) (by rw [ht]; rfl) he h).1 ht
    have hother : SameUnit (otherUnit u) s t := sameUnit_of_concerns_other (by cases u <;> nofun) (.inl ht) h
    have hport : t.port = s.port := (ownStep_port_fcause hres).1
    rw [work_eq u, work_eq u, ownStepsLeft_congr hother, hport]
    omega
  | command =>
    rw [ht] at he
    obtain ⟨w, rest, hp, hs⟩ := (cmdAccept_iff s).1 he
    have hconcerns : TurnConcerns (unitOf w) s := .inr ⟨ht, w, by rw [cmd, hp]; rfl, rfl⟩
    have hother : SameUnit (otherUnit (unitOf w)) s t := sameUnit_of_concerns_other (by cases unitOf w <;> nofun) hconcerns h
    have hmost := ownStepsLeft_le (stateInv_iff.1 (step_keeps_inv hi h) (unitOf w))
    rw [step_command_cons ht hp, if_neg hs] at h
    have hport : t.port = rest := perform_port h
    rw [work_eq (unitOf w), work_eq (unitOf w) s, ownStepsLeft_congr hother, ownStepsLeft_eq_zero hs, hport, hp, List.length_cons]
    omega

/-! ### Rounds -/

/-- A stretch of the schedule takes work off, or none of its turns was enabled. -/
theorem run_stretch (r : List Config.Turn) {s : State} {rest : List Config.Turn} (hi : StateInv s) (hr : ∀ t ∈ r, isReset t = false)
    (hsched : s.sched = r ++ rest) : ∃ t, run r.length s = .next t ∧ StateInv t ∧ t.sched = rest ∧
      (work t < work s ∨ work t = work s ∧ ∀ y ∈ r, ¬Enabled s y) := by
  induction r generalizing s with
  | nil => exact ⟨s, rfl, hi, hsched, .inr ⟨rfl, nofun⟩⟩
  | cons y r ih =>
    have hturn : s.turn = y := turn_cons s y _ hsched
    obtain ⟨s', hstep⟩ := step_total hi
    have hsched' : s'.sched = r ++ rest := by rw [(step_ownFields hstep).1, hsched, List.cons_append, List.tail_cons]
    obtain ⟨t, hrun, hinv, hrest, hwork⟩ := ih (step_keeps_inv hi hstep) (fun z hz => hr z (List.mem_cons_of_mem _ hz)) hsched'
    refine ⟨t, (run_succ hstep).trans hrun, hinv, hrest, ?_⟩
    by_cases he : Enabled s y
    · have hless := step_works hi (hturn ▸ he) hstep
      exact .inl (by rcases hwork with h | ⟨h, _⟩ <;> omega)
    · have hsame := step_idle (hturn ▸ hr y List.mem_cons_self) (hturn ▸ he) hstep
      rw [hsame.work] at hwork
      refine hwork.imp_right fun ⟨h, hnone⟩ => ⟨h, List.forall_mem_cons.2 ⟨he, fun z hz => ?_⟩⟩
      exact fun hz' => hnone z hz ((hsame.enabled z).2 hz')

/-- A schedule made of rounds in which everyone has a turn takes off as much work as there are rounds. -/
theorem run_rounds (rounds : List (List Config.Turn)) {s : State} (hi : StateInv s)
    (hr : ∀ r ∈ rounds, .command ∈ r ∧ .own .u16 ∈ r ∧ .own .u32 ∈ r ∧ ∀ t ∈ r, isReset t = false) (hsched : s.sched = rounds.flatten) :
    ∃ t, run rounds.flatten.length s = .next t ∧ StateInv t ∧ work t ≤ work s - rounds.length := by
  induction rounds generalizing s with
  | nil => exact ⟨s, rfl, hi, le_rfl⟩
  | cons r rounds ih =>
    obtain ⟨hcommand, hu16, hu32, hnoReset⟩ := hr r List.mem_cons_self
    rw [List.flatten_cons] at hsched ⊢
    obtain ⟨s', hrun, hi', hsched', hwork⟩ := run_stretch r hi hnoReset hsched
    obtain ⟨t, hrun', hinv, hless⟩ := ih hi' (fun q hq => hr q (List.mem_cons_of_mem _ hq)) hsched'
    rw [List.length_append, List.length_cons]
    refine ⟨t, (run_add _ hrun).trans hrun', hinv, ?_⟩
    rcases hwork with h | ⟨h, hnone⟩
    · omega
    · have hzero : work s = 0 := by
        by_contra hne
        obtain ⟨y, hy | ⟨u, hy⟩, he⟩ := exists_enabled hne
        · exact hnone y (hy ▸ hcommand) he
        · exact hnone y (by cases u <;> subst hy <;> assumption) he
      omega

/-- An enabled turn takes work off, any other that is no reset changes nothing, whatever schedule gives it. -/
theorem Moves.works {r : Config.Turn} {s t : State} (h : Moves r s t) (hi : StateInv s) (hr : isReset r = false) :
    (Enabled s r → work t < work s) ∧ (¬Enabled s r → SameBlock s t) := by
  obtain ⟨ts, rfl, hstep⟩ := h
  have hsame := sameBlock_mk s ts s.tick
  rw [← hsame.enabled, ← hsame.work]
  exact ⟨fun he => step_works hi he hstep, fun he => hsame.trans (step_idle hr he hstep)⟩

/-- An endless run without a reset in which an enabled turn comes to be taken, if it stays enabled, finishes all work: it cannot stay
at the least work it reaches. -/
theorem IsTrace.finishes {σ : Nat → Config.Turn} {x : Nat → State} (h : IsTrace σ x) (hi : ∀ m, StateInv (x m))
    (hreset : ∀ n, isReset (σ n) = false)
    (fair : ∀ n r, r = .command ∨ (∃ u, r = .own u) → (∀ m, n ≤ m → Enabled (x m) r) → ∃ m, n ≤ m ∧ σ m = r) : ∃ k, work (x k) = 0 := by
  have hmove := fun m => (h m).works (hi m) (hreset m)
  have hleast := fun m => Function.argmin_le (fun n => work (x n)) m
  set n := Function.argmin fun n => work (x n)
  have hdisabled : ∀ m, SameBlock (x n) (x m) → ¬Enabled (x m) (σ m) := fun m hsame he =>
    (hleast (m + 1)).not_gt (hsame.work ▸ (hmove m).1 he)
  have hstuck : ∀ m, n ≤ m → SameBlock (x n) (x m) := by
    intro m hm
    induction m, hm using Nat.le_induction with
    | base => exact sameBlock_mk _ _ _
    | succ m _ ih => exact ih.trans ((hmove m).2 (hdisabled m ih))
  refine ⟨n, by_contra fun hne => ?_⟩
  obtain ⟨r, hr, he⟩ := exists_enabled hne
  have hstays : ∀ m, n ≤ m → Enabled (x m) r := fun m hm => ((hstuck m hm).enabled r).2 he
  obtain ⟨m, hm, rfl⟩ := fair n r hr hstays
  exact hdisabled m (hstuck m hm) (hstays m hm)

/-- Settles O55: each round takes work off, and an endless fair run does not stay at a least amount of work above 0. -/
theorem fairRoundsFinishAllWork : Obligations.FairRoundsFinishAllWork := by
  refine ⟨fun s rounds hi hr hsched hwork => ?_, fun s σ hi hreset hfair16 hfair32 hhost => ?_⟩
  · obtain ⟨t, hrun, hinv, hless⟩ := run_rounds rounds hi hr hsched
    have hnone : work t = 0 := Nat.eq_zero_of_le_zero (hless.trans (Nat.sub_eq_zero_of_le hwork).le)
    exact ⟨t, hsched ▸ hrun, finished_of_no_work hinv hnone⟩
  · obtain ⟨x, htrace, hx⟩ := exists_trace_under σ hi
    obtain ⟨k, hk⟩ := htrace.finishes (fun m => (hx m).2) hreset fun n r hr hen => by
      rcases hr with rfl | ⟨u, rfl⟩
      · exact hhost n
      · cases u
        · exact hfair16.on_trace hx n hen
        · exact hfair32.on_trace hx n hen
    exact ⟨k, x k, (hx k).1, finished_of_no_work (hx k).2 hk⟩

end Sys2Proof.Machine
end

section
/-! PROOFS. The caller's side: the wrapper (R136) and the assembler's text (R57, R58).

A line that begins with a mnemonic is read by the rule of that mnemonic. What is then left to a line is its operand: the decimal
digits of a byte, or the characters of a string up to its closing quote. -/

namespace Sys2Proof.Machine

/-! ### The wrapper -/

theorem messageWellFormed_iff (xs : List Int) : messageWellFormed (some xs) = true ↔ ∀ x ∈ xs, 0 ≤ x ∧ x ≤ 255 := by
  simp [messageWellFormed]

/-- R31: the byte of an element in 0 to 255 is that element. -/
theorem byteOfInt_toNat {x : Int} (h : 0 ≤ x ∧ x ≤ 255) : ((byteOfInt x).toNat : Int) = x := by
  rw [byteOfInt, BitVec.toNat_ofInt]
  omega

/-- Settles O56: the check is the range of every element, and the bytes are those of the elements. -/
theorem wrapperRefusesNonBytes : Obligations.WrapperRefusesNonBytes := by
  refine fun u s => ⟨rfl, fun xs ⟨x, hx, hout⟩ => ?_, fun xs hin => ⟨xs.map byteOfInt, ?_, ?_⟩⟩
  · have hbad : ¬messageWellFormed (some xs) = true := fun hgood => by
      have := (messageWellFormed_iff xs).1 hgood x hx
      omega
    exact if_neg hbad
  · rw [List.map_map]
    exact (List.map_congr_left fun x hx => byteOfInt_toNat (hin x hx)).trans (List.map_id xs)
  · exact if_pos ((messageWellFormed_iff xs).2 hin)

/-! ### Mnemonics -/

theorem skipBlanks_cons {c : Char} {cs : List Char} (h : isBlank c = false) : skipBlanks (c :: cs) = c :: cs := by
  simp [skipBlanks, h]

theorem skipBlanks_space (cs : List Char) : skipBlanks (' ' :: cs) = skipBlanks cs := rfl

/-- A letter or digit of a mnemonic is neither a blank nor the start of a comment. -/
theorem mnemonicChar_solid {c : Char} (h : isMnemonicChar c = true) : isBlank c = false ∧ (c == ';') = false := by
  have hrange : (0x41 ≤ c.toNat ∧ c.toNat ≤ 0x5A) ∨ (0x30 ≤ c.toNat ∧ c.toNat ≤ 0x39) := by simpa [isMnemonicChar] using h
  constructor
  · simp only [isBlank, Bool.or_eq_false_iff, beq_eq_false_iff_ne]
    omega
  · rw [beq_eq_false_iff_ne]
    rintro rfl
    revert hrange
    decide

/-- The text after a mnemonic: none, or text set off by a space. -/
def SetOff (rest : List Char) : Prop := rest = [] ∨ ∃ cs, rest = ' ' :: cs

/-- R57: a line that begins with a mnemonic is read by that mnemonic. -/
theorem assembleLine_append {name rest : List Char} (hne : name ≠ []) (hname : ∀ c ∈ name, isMnemonicChar c = true)
    (hrest : SetOff rest) : assembleLine (name ++ rest) = commandLine name rest := by
  have hskip : skipBlanks (name ++ rest) = name ++ rest := by
    obtain ⟨c, cs, rfl⟩ := List.exists_cons_of_ne_nil hne
    exact skipBlanks_cons (mnemonicChar_solid (hname c List.mem_cons_self)).1
  have hends : lineEnds (name ++ rest) = false := by
    obtain ⟨c, cs, rfl⟩ := List.exists_cons_of_ne_nil hne
    rw [lineEnds, hskip]
    exact (mnemonicChar_solid (hname c List.mem_cons_self)).2
  have htake : rest.takeWhile isMnemonicChar = [] := by rcases hrest with rfl | ⟨cs, rfl⟩ <;> rfl
  have hdrop : rest.dropWhile isMnemonicChar = rest := by rcases hrest with rfl | ⟨cs, rfl⟩ <;> rfl
  have hblank : (lineEnds rest || rest.head?.any isBlank) = true := by
    rcases hrest with rfl | ⟨cs, rfl⟩
    · rfl
    · exact Bool.or_true _
  rw [assembleLine, hends, if_neg Bool.false_ne_true, hskip]
  simp only [List.takeWhile_append_of_pos hname, List.dropWhile_append_of_pos hname, htake, hdrop, hblank, List.append_nil, if_true]

theorem mnemonic_ne_nil (i : Instr) : i.mnemonic.toList ≠ [] := by cases i <;> simp [Instr.mnemonic]

theorem mnemonic_chars (i : Instr) : ∀ c ∈ i.mnemonic.toList, isMnemonicChar c = true := by
  cases i <;> simp [Instr.mnemonic, isMnemonicChar]

/-- START and FINISH stand alone on their line. -/
theorem commandLine_bare {i : Instr} (hi : i.op ≠ .byte) (rest : List Char) :
    commandLine i.mnemonic.toList rest = bareLine i rest := by
  cases i with
  | byte16 b | byte32 b => exact absurd rfl hi
  | start16 | finish16 | start32 | finish32 => simp [commandLine, Instr.mnemonic]

theorem commandLine_byte (u : UnitId) (b : Byte) (rest : List Char) :
    commandLine (instrOf u .byte b).mnemonic.toList rest = byteLine u rest := by
  cases u <;> simp [commandLine, instrOf, Instr.mnemonic]

/-! ### Decimal operands -/

theorem digit_range {c : Char} (h : c.isDigit = true) : 48 ≤ c.toNat ∧ c.toNat ≤ 57 := Char.isDigit_iff_toNat.1 h

theorem digitValue_of_isDigit {c : Char} (h : c.isDigit = true) : digitValue c = c.toNat - 48 := if_pos (digit_range h)

/-- The reader of decimal digits computes the number they stand for. -/
theorem readDigits_ten {cs : List Char} (h : ∀ c ∈ cs, c.isDigit = true) (n : Nat) :
    readDigits 10 n cs = (Nat.ofDigitChars 10 cs n, []) := by
  induction cs generalizing n with
  | nil => rw [readDigits, Nat.ofDigitChars_nil]
  | cons c cs ih =>
    obtain ⟨hc, hcs⟩ := List.forall_mem_cons.1 h
    have := digit_range hc
    rw [readDigits, digitValue_of_isDigit hc, if_pos (by omega), ih hcs, Nat.ofDigitChars_cons, Nat.mul_comm]
    rfl

/-- Digits alone are a decimal operand: `x`, `b` and the quote are no digits. -/
theorem readOperand_digits {cs : List Char} (hne : cs ≠ []) (h : ∀ c ∈ cs, c.isDigit = true) : readOperand cs = readNumber 10 cs := by
  unfold readOperand
  split
  · exact absurd (h 'x' (by simp)) (by decide)
  · exact absurd (h 'b' (by simp)) (by decide)
  case h_3 c cs _ _ =>
    refine if_neg fun hq => ?_
    rw [beq_iff_eq.1 hq] at h
    exact absurd (h singleQuote List.mem_cons_self) (by decide)
  · exact absurd rfl hne

theorem readNumber_toDigits {n : Nat} (hn : n ≤ 255) : readNumber 10 (Nat.toDigits 10 n) = some (BitVec.ofNat 8 n, []) := by
  have hdigits : ∀ c ∈ Nat.toDigits 10 n, c.isDigit = true := fun c hc => Nat.isDigit_of_mem_toDigits (by decide) (by decide) hc
  have hread := readDigits_ten hdigits 0
  rw [Nat.ofDigitChars_ten_toDigits] at hread
  obtain ⟨c, cs, hcons⟩ := List.exists_cons_of_ne_nil (Nat.toDigits_ne_nil (n := n) (b := 10))
  rw [hcons] at hread hdigits ⊢
  have hc := hdigits c List.mem_cons_self
  have := digit_range hc
  simp only [readNumber, digitValue_of_isDigit hc, hread, if_pos hn, if_pos (show c.toNat - 48 < 10 by omega)]

/-- A byte's decimal digits after the space are its operand. -/
theorem byteLine_toDigits (u : UnitId) (b : Byte) : byteLine u (' ' :: Nat.toDigits 10 b.toNat) = some [instrOf u .byte b] := by
  have hdigits : ∀ c ∈ Nat.toDigits 10 b.toNat, c.isDigit = true :=
    fun c hc => Nat.isDigit_of_mem_toDigits (by decide) (by decide) hc
  have hskip : skipBlanks (Nat.toDigits 10 b.toNat) = Nat.toDigits 10 b.toNat := by
    obtain ⟨c, cs, hcons⟩ := List.exists_cons_of_ne_nil (Nat.toDigits_ne_nil (n := b.toNat) (b := 10))
    rw [hcons] at hdigits ⊢
    have hc := digit_range (hdigits c List.mem_cons_self)
    refine skipBlanks_cons ?_
    simp only [isBlank, Bool.or_eq_false_iff, beq_eq_false_iff_ne]
    omega
  rw [byteLine, skipBlanks_space, hskip, readOperand_digits Nat.toDigits_ne_nil hdigits, readNumber_toDigits (Nat.le_of_lt_succ b.isLt),
    BitVec.ofNat_toNat, BitVec.setWidth_eq]
  rfl

/-- The text of BYTE on either unit. -/
theorem assembleLine_byte (u : UnitId) (b : Byte) :
    assembleLine ((instrOf u .byte b).mnemonic.toList ++ ' ' :: Nat.toDigits 10 b.toNat) = some [instrOf u .byte b] := by
  rw [assembleLine_append (mnemonic_ne_nil _) (mnemonic_chars _) (.inr ⟨_, rfl⟩), commandLine_byte, byteLine_toDigits]

/-- The text of START and FINISH is the mnemonic. -/
theorem assembleLine_bare {i : Instr} (hi : i.op ≠ .byte) : assembleLine i.mnemonic.toList = some [i] := by
  have hline := assembleLine_append (mnemonic_ne_nil i) (mnemonic_chars i) (.inl rfl)
  rw [List.append_nil, commandLine_bare hi] at hline
  exact hline

/-- Settles O57: BYTE with the digits of its operand, the others alone on their line. -/
theorem renderedCommandAssembles : Obligations.RenderedCommandAssembles := by
  intro i
  cases i with
  | byte16 b => exact assembleLine_byte .u16 b
  | byte32 b => exact assembleLine_byte .u32 b
  | start16 | finish16 | start32 | finish32 => exact assembleLine_bare nofun

/-! ### String operands -/

/-- R58: the characters up to the closing quote are read as their codes. -/
theorem readString_quoted {cs : List Char} (h : ∀ c ∈ cs, 0x20 ≤ c.toNat ∧ c.toNat ≤ 0x7E ∧ c ≠ doubleQuote) :
    readString (cs ++ [doubleQuote]) = some (cs.map charCode, []) := by
  induction cs with
  | nil => rfl
  | cons c cs ih =>
    obtain ⟨⟨hlow, hhigh, hquote⟩, hcs⟩ := List.forall_mem_cons.1 h
    have hprint : isPrintable c = true := by simp [isPrintable, textWellFormed, hlow, hhigh]
    rw [List.cons_append, readString, beq_eq_false_iff_ne.2 hquote, if_neg Bool.false_ne_true, if_pos hprint, ih hcs]
    rfl

/-- A string operand after the space is the transaction of its characters' codes. -/
theorem crcLine_quoted (u : UnitId) {cs : List Char} (h : ∀ c ∈ cs, 0x20 ≤ c.toNat ∧ c.toNat ≤ 0x7E ∧ c ≠ doubleQuote) :
    crcLine u (' ' :: doubleQuote :: (cs ++ [doubleQuote])) = some (expansion u (cs.map charCode)) := by
  have hread : readMessage (' ' :: doubleQuote :: (cs ++ [doubleQuote])) = some (cs.map charCode, []) := readString_quoted h
  rw [crcLine, hread]
  rfl

/-- The mnemonic of a unit's pseudo-instruction. -/
def crcMnemonic : UnitId → String
  | .u16 => "CRC16"
  | .u32 => "CRC32"

theorem assembleLine_crc (u : UnitId) (cs : List Char) :
    assembleLine ((crcMnemonic u).toList ++ ' ' :: cs) = crcLine u (' ' :: cs) := by
  rw [assembleLine_append ?_ ?_ (.inr ⟨cs, rfl⟩)]
  · cases u <;> simp [commandLine, crcMnemonic]
  · cases u <;> simp [crcMnemonic]
  · cases u <;> simp [crcMnemonic, isMnemonicChar]

/-- Settles O58: the mnemonic names the unit, and the string is read up to its closing quote. -/
theorem stringPseudoInstructionExpands : Obligations.StringPseudoInstructionExpands := by
  intro cs h
  have hline : ∀ u, assembleLine ((crcMnemonic u).toList ++ ' ' :: doubleQuote :: (cs ++ [doubleQuote])) =
      some (instrOf u .start 0#8 :: (cs.map (fun c => instrOf u .byte (charCode c)) ++ [instrOf u .finish 0#8])) := fun u => by
    rw [assembleLine_crc, crcLine_quoted u h, expansion, List.map_map]
    rfl
  have hspace : "CRC16 ".toList = "CRC16".toList ++ [' '] ∧ "CRC32 ".toList = "CRC32".toList ++ [' '] := by simp
  rw [hspace.1, hspace.2, List.append_assoc, List.append_assoc]
  exact ⟨hline .u16, hline .u32⟩

end Sys2Proof.Machine
end
